-- ==== Sys2Proof/Word.lean ====
section
/-! DEFINITION. The value types of A51E: single bits, bit sequences, the three register widths and the packed command header. -/

namespace Sys2Proof

/-- A bit, 0 (`false`) or 1 (`true`) (R7, 00_scope.md). -/
abbrev Bit := Bool

/-- A bit sequence of any length, element 0 (the front) first: payloads, responses, keys (R7, R52). -/
abbrev Bits := List Bit

/-- A value of register A, length 19 (R21).  Element `i` of the sequence is bit `i` of the vector:
index 0 is the front, index 18 the last (DESIGN CHOICE, safe: log 6). -/
abbrev RegA := BitVec 19

/-- A value of register B, length 22 (R22). -/
abbrev RegB := BitVec 22

/-- A value of register C, length 23 (R23). -/
abbrev RegC := BitVec 23

/-- The packed command header `H`, bit 0 the least significant (R8, R70). -/
abbrev Header := BitVec 32

end Sys2Proof
end

