-- ==== Sys2Proof/Config.lean ====
section
/-! DEFINITION. What is fixed for A51E: the widths of the encoding, and the free values of what the spec leaves without a value. -/

namespace Sys2Proof.Config

/-- KEYLEN, the key length in bits (R6). -/
def keyLen : Nat := 64

/-- The largest count or length that LEN (24 bits) holds, 2^24 - 1 (R6, R74). -/
def maxLen : Nat := 16777215

/-- What a hardware reset leaves in a 19-bit register is unspecified (R200, R34; U3, U8): a free value, one per
draw, that no proof can see.  DESIGN CHOICE, safe: log 2. -/
opaque freeA : Nat → RegA

/-- The free value of a 22-bit register after a hardware reset (R200; log 2). -/
opaque freeB : Nat → RegB

/-- The free value of a 23-bit register after a hardware reset (R200; log 2). -/
opaque freeC : Nat → RegC

end Sys2Proof.Config
end

