-- ==== Sys2Proof/Syntax.lean ====
section
/-! DEFINITION. The six commands of A51E as decoded headers, one constructor per row of spec/opcode_table.json (R73, R80). -/

namespace Sys2Proof

/-- A command as `Decode` reads it from a header (R80).  The count is a natural number (R74: "a model may take
`n` as a natural number"); that it fits LEN is the check of WellFormed (log 7).  The payload is no part of the
header: the engine takes it from DIN (R70, R75). -/
inductive Instr where
  /-- LOADKEY with `len` payload bits (R100). -/
  | loadkey (len : Nat)
  /-- RESET (R104). -/
  | reset
  /-- STEP (R130). -/
  | step
  /-- GENKS `n` (R151). -/
  | genks (n : Nat)
  /-- ENCRYPT with `len` payload bits (R155). -/
  | encrypt (len : Nat)
  /-- DECRYPT with `len` payload bits (R156). -/
  | decrypt (len : Nat)
  deriving DecidableEq, Repr

/-- The formats of R72. -/
inductive Format where
  /-- No operand: LEN is 0, no payload. -/
  | z
  /-- LEN is a step count, no payload. -/
  | n
  /-- LEN is the length of the payload that follows. -/
  | p
  deriving DecidableEq, Repr

/-- Why a header selects no command (R76 to R78). -/
inductive Illegal where
  /-- `H[28:24]` is not 00000 (R77). -/
  | reservedField
  /-- `H[31:29]` is 000 or 111 (R76). -/
  | reservedOpcode
  /-- RESET or STEP with LEN not zero (R78). -/
  | countOnFormatZ
  deriving DecidableEq, Repr

/-- What `Decode` answers: one of the six commands, or Illegal with its reason (R79, R80). -/
inductive Decoded where
  | command (i : Instr)
  | illegal (why : Illegal)
  deriving DecidableEq, Repr

end Sys2Proof
end

