-- ==== Sys2Proof/WellFormed.lean ====
section
/-! DEFINITION. Which commands can be written in a header: the count fits the 24 bits of LEN (R74, R82). -/

namespace Sys2Proof

/-- The count fits LEN (R74: 0 to 2^24 - 1). -/
def fitsLen (n : Nat) : Bool := decide (n ≤ Config.maxLen)

/-- A command that has a header (R82: "must be at most 2^24 - 1 or the line cannot be assembled").  LOADKEY may
have any such length, not only 64. -/
def WellFormed : Instr → Bool
  | .loadkey len => fitsLen len
  | .reset => true
  | .step => true
  | .genks n => fitsLen n
  | .encrypt len => fitsLen len
  | .decrypt len => fitsLen len

end Sys2Proof
end

