-- ==== Sys2Proof/Decode.lean ====
section
/-! DEFINITION. The header decoder `Decode` (R80), the encoder from the same tables (R71, R73, R82), formats and packet length (R72, R75). -/

namespace Sys2Proof

/-- The field OP, `H[31:29]` (R71). -/
def opField (h : Header) : BitVec 3 := h.extractLsb' 29 3

/-- The field RSV, `H[28:24]` (R71). -/
def rsvField (h : Header) : BitVec 5 := h.extractLsb' 24 5

/-- The field LEN, `H[23:0]`, read as an unsigned integer (R71, R74). -/
def lenField (h : Header) : Nat := (h.extractLsb' 0 24).toNat

/-- A format Z row of `Decode`: LEN must be 0 (R78, R80). -/
def decodeZ (n : Nat) (i : Instr) : Decoded := if n = 0 then .command i else .illegal .countOnFormatZ

/-- `Decode` (R80), total on every header, in the order of the rule: RSV, then OP, then LEN on a format Z row. -/
def decode (h : Header) : Decoded :=
  if rsvField h ≠ 0#5 then .illegal .reservedField
  else match (opField h).toNat with
    | 1 => .command (.loadkey (lenField h))
    | 2 => decodeZ (lenField h) .reset
    | 3 => decodeZ (lenField h) .step
    | 4 => .command (.genks (lenField h))
    | 5 => .command (.encrypt (lenField h))
    | 6 => .command (.decrypt (lenField h))
    | _ => .illegal .reservedOpcode

/-- The opcode of each command (R73). -/
def opcode : Instr → BitVec 3
  | .loadkey _ => 1#3
  | .reset => 2#3
  | .step => 3#3
  | .genks _ => 4#3
  | .encrypt _ => 5#3
  | .decrypt _ => 6#3

/-- The number the command puts into LEN (R72). -/
def lenOperand : Instr → Nat
  | .loadkey len => len
  | .reset => 0
  | .step => 0
  | .genks n => n
  | .encrypt len => len
  | .decrypt len => len

/-- The format of each command (R72). -/
def format : Instr → Format
  | .loadkey _ => .p
  | .reset => .z
  | .step => .z
  | .genks _ => .n
  | .encrypt _ => .p
  | .decrypt _ => .p

/-- How many payload bits follow the header: LEN for format P, none otherwise (R72, R75). -/
def payloadLen (i : Instr) : Nat :=
  match format i with
  | .p => lenOperand i
  | .z => 0
  | .n => 0

/-- The header of a command: OP, RSV = 00000, LEN (R71, R82). -/
def encode (i : Instr) : Header := opcode i ++ 0#5 ++ BitVec.ofNat 24 (lenOperand i)

/-- The packet length from the header alone: an illegal header has no payload (R75). -/
def headerPayloadLen (h : Header) : Nat :=
  match decode h with
  | .command i => payloadLen i
  | .illegal _ => 0

/-- The header whose low `nbits` bits are those of `w`, every bit above them 0.  A header is one 32-bit word
presented whole, so it has no byte order (R53, R70). -/
def headerOf (nbits w : Nat) : Header := BitVec.ofNat 32 (w % 2 ^ nbits)

/-- The command the decoder reads from a table word (none where it refuses). -/
def decodeTableWord (nbits w : Nat) : Option Instr :=
  match decode (headerOf nbits w) with
  | .command i => some i
  | .illegal _ => none

end Sys2Proof
end

