-- ==== Sys2Proof/Machine/State.lean ====
section
/-! DEFINITION. The state of A51E as plain data: the engine tuple S of R30, and beside it the host side of the command interface; the statuses, packets and responses that cross it; the reasons a step can stop. -/

namespace Sys2Proof.Machine

/-- One value for each of the three registers A, B, C: the `(a, b, c)` of 41_clocking_step.md. -/
structure Regs where
  a : RegA
  b : RegB
  c : RegC
  deriving DecidableEq, Repr

/-- The engine state `S = (KV, IA, IB, IC, RA, RB, RC)` and nothing else (R29, R30). -/
structure Engine where
  /-- `KV`, key valid (R26). -/
  kv : Bool
  /-- `IA`, `IB`, `IC`, the stored initial vectors (R25). -/
  iv : Regs
  /-- `RA`, `RB`, `RC`, the current register values (R21 to R23). -/
  cur : Regs
  deriving DecidableEq, Repr

/-- The five named statuses of R175; there is no sixth (93 U5). -/
inductive Status where
  | ok
  | invalidKeyLength
  /-- Front end only, never produced by the engine (R173). -/
  | invalidInputFormat
  | noKey
  | illegalCommand
  deriving DecidableEq, Repr

/-- One response of the engine: `respond(status, bits)` (R81). -/
structure Response where
  status : Status
  /-- Response bits in the order produced (R52). -/
  bits : Bits
  deriving DecidableEq, Repr

/-- A command packet as the host sends it: the header, and the payload bits that follow it, front first (R70). -/
structure Packet where
  header : Header
  payload : Bits
  deriving DecidableEq, Repr

/-- What can happen to the engine from outside, one after another (R20, R57, R201). -/
inductive Input where
  /-- The host presents a command packet. -/
  | packet (p : Packet)
  /-- `RST_N` is asserted and released: an event between commands (R201; log 8). -/
  | hardwareReset
  deriving DecidableEq, Repr

/-- The machine: the engine, and the host side of its interface.  The last four fields are not engine state
(R29): they hold what the host has still to present and what it has received, so that a step is one
deterministic function (log 3). -/
structure State where
  engine : Engine
  /-- What the host and `RST_N` will do, in the order they do it (R57). -/
  input : List Input
  /-- The payload bits the host presents with the command in hand (R70, R75). -/
  din : Bits
  /-- The responses delivered to the host, oldest first (R57, R81). -/
  delivered : List Response
  /-- The MODEL'S own counter of free values drawn (log 2); no field of the spec. -/
  draws : Nat
  deriving DecidableEq, Repr

/-- Why the machine stops. -/
inductive Fault where
  /-- LOADKEY, ENCRYPT and DECRYPT, when the host sends fewer payload bits than the header announces: "the
  engine waits" and "the command never completes" (R205; 93 U6, treatment `stuck`).  Raised by
  `withPayload`.  Safe: the hardware gives no response either (log 4). -/
  | payloadStarved
  deriving DecidableEq, Repr

/-- Why an instruction has no meaning. -/
inductive Refusal where
  /-- An instruction of the table that the model gives no meaning; raised by no arm of this model.  Safe. -/
  | notModelled (mnemonic : String)
  deriving DecidableEq, Repr

/-- The three outcomes of a step of this machine. -/
abbrev Result := Host.Outcome State Fault Refusal

/-- All three registers all 0. -/
def Regs.zero : Regs := ⟨0, 0, 0⟩

/-- The engine right after hardware reset: `KV = 0` (R34, R200).  The six registers have no value in the spec;
that they read 0 here is a DESIGN CHOICE, unsafe, which no command can observe (log 1). -/
def Engine.reset : Engine := ⟨false, Regs.zero, Regs.zero⟩

/-- The machine right after hardware reset: the engine idle (R35, R200), nothing presented, nothing delivered
(log 3). -/
def State.reset : State := ⟨Engine.reset, [], [], [], 0⟩

end Sys2Proof.Machine
end

