-- ==== Sys2Proof/Machine/Flags.lean ====
section
/-! DEFINITION. The one flag of the engine, KV (R26, R27), and the numeric status codes (R175). -/

namespace Sys2Proof.Machine

/-- Whether a key is loaded: the test of RESET, STEP, GENKS, ENCRYPT and DECRYPT (R26, R172). -/
def Engine.keyValid (e : Engine) : Bool := e.kv

/-- `KV <- 1`, by a successful LOADKEY only (R26, R100). -/
def Engine.setKeyValid (e : Engine) : Engine := { e with kv := true }

/-- `KV <- 0`, by hardware reset only (R26, R200). -/
def Engine.clearKeyValid (e : Engine) : Engine := { e with kv := false }

/-- The 3-bit code of a status on RSP_STATUS (R175); 5, 6, 7 are never produced. -/
def Status.code : Status → BitVec 3
  | .ok => 0#3
  | .invalidKeyLength => 1#3
  | .invalidInputFormat => 2#3
  | .noKey => 3#3
  | .illegalCommand => 4#3

end Sys2Proof.Machine
end

