-- ==== Sys2Proof/Machine/Operands.lean ====
section
/-! DEFINITION. The operand forms: bit sequences against registers (R50, R53), the key map `Split` (R51), the tap tables and clocking indices (R28), the payload operand (R75). -/

namespace Sys2Proof.Machine

/-- The register of length `n` whose element `i` is element `i` of the sequence; elements the sequence lacks
are 0, and those from `n` on are dropped (used where the length is exactly `n`). -/
def ofBits (n : Nat) : Bits → BitVec n
  | [] => 0#n
  | x :: xs => (ofBits n xs).shiftConcat x

/-- The sequence of a register's elements, front first. -/
def toBits {n : Nat} (v : BitVec n) : Bits := (List.range n).map v.getLsbD

/-- The key offsets: A takes [0,19), B [19,41), C [41,64) (R6). -/
def keyOffsetB : Nat := 19
def keyOffsetC : Nat := 41

/-- `K[lo..hi)` (R7). -/
def slice (k : Bits) (lo hi : Nat) : Bits := (k.drop lo).take (hi - lo)

/-- `Split`, the key map (R51): no reversal, no interleaving, no mixing. -/
def split (k : Bits) : Regs :=
  ⟨ofBits 19 (slice k 0 keyOffsetB), ofBits 22 (slice k keyOffsetB keyOffsetC),
    ofBits 23 (slice k keyOffsetC Config.keyLen)⟩

/-- `a ++ b ++ c`: the 64 bits of a register state in key order (R25, R30). -/
def joinRegs (r : Regs) : Bits := toBits r.a ++ toBits r.b ++ toBits r.c

/-- TA, the tap positions of register A (R28). -/
def tapsA : List Nat := [13, 16, 17, 18]

/-- TB, the tap positions of register B (R28). -/
def tapsB : List Nat := [20, 21]

/-- TC, the tap positions of register C (R28). -/
def tapsC : List Nat := [7, 20, 21, 22]

/-- CA, the clocking index of register A (R28). -/
def clockIndexA : Nat := 8

/-- CB, the clocking index of register B (R28). -/
def clockIndexB : Nat := 10

/-- CC, the clocking index of register C (R28). -/
def clockIndexC : Nat := 10

/-- The output taps: the last index of each register (R6, R126). -/
def lastA : Nat := 18
def lastB : Nat := 21
def lastC : Nat := 22

/-- The payload operand of `n` bits (R75): the first `n` bits presented on DIN, or none where the host has
sent fewer and the engine waits (R205).  Bits beyond `n` are not taken (R205; log 5). -/
def takePayload (n : Nat) (s : State) : Option Bits := if n ≤ s.din.length then some (s.din.take n) else none

end Sys2Proof.Machine
end

