-- ==== Sys2Proof/Machine/Lfsr.lean ====
section
/-! DEFINITION. The pure functions of one step and of many: majority, clock enables, feedback, shift, the tap-feedback mux, the output tap selector, StepF, GenF, CryptF (R120 to R127, R150, R154). -/

namespace Sys2Proof.Machine

/-- `Maj`, the majority vote (R120). -/
def maj (x y z : Bit) : Bit := (x && y) || (x && z) || (y && z)

/-- The clocking bits `a[8]`, `b[10]`, `c[10]` (R121). -/
def clockBitA (r : Regs) : Bit := r.a.getLsbD clockIndexA
def clockBitB (r : Regs) : Bit := r.b.getLsbD clockIndexB
def clockBitC (r : Regs) : Bit := r.c.getLsbD clockIndexC

/-- `MajOf`, the majority of the current clocking bits (R121). -/
def majOf (r : Regs) : Bit := maj (clockBitA r) (clockBitB r) (clockBitC r)

/-- `CkenA`, `CkenB`, `CkenC`: a register clocks when its clocking bit equals the majority (R122). -/
def ckenA (r : Regs) : Bool := clockBitA r == majOf r
def ckenB (r : Regs) : Bool := clockBitB r == majOf r
def ckenC (r : Regs) : Bool := clockBitC r == majOf r

/-- `XOR S`: the exclusive-or of the bits at the listed positions; of no bits, 0 (R9). -/
def xorTaps {n : Nat} (v : BitVec n) : List Nat → Bit
  | [] => false
  | t :: ts => v.getLsbD t ^^ xorTaps v ts

/-- `FbA`, `FbB`, `FbC`: the feedback bit of each register, from its own pre-step value (R123). -/
def fbA (a : RegA) : Bit := xorTaps a tapsA
def fbB (b : RegB) : Bit := xorTaps b tapsB
def fbC (c : RegC) : Bit := xorTaps c tapsC

/-- `Shift`, `[f] ++ v[0..n-1)`: `f` at the front, every bit to the next higher index, the last dropped (R124). -/
def shift {n : Nat} (v : BitVec n) (f : Bit) : BitVec n := v.shiftConcat f

/-- `NextA`, `NextB`, `NextC`: the tap-feedback mux, all from the state before the step (R125). -/
def nextA (r : Regs) : RegA := if ckenA r then shift r.a (fbA r.a) else r.a
def nextB (r : Regs) : RegB := if ckenB r then shift r.b (fbB r.b) else r.b
def nextC (r : Regs) : RegC := if ckenC r then shift r.c (fbC r.c) else r.c

/-- The three simultaneous updates of one step (R125). -/
def clockRegs (r : Regs) : Regs := ⟨nextA r, nextB r, nextC r⟩

/-- `Out`, the keystream output tap selector (R126). -/
def outBit (r : Regs) : Bit := r.a.getLsbD lastA ^^ r.b.getLsbD lastB ^^ r.c.getLsbD lastC

/-- `StepF`: the registers after the update, and the output bit taken from them (R127). -/
def stepF (r : Regs) : Regs × Bit := (clockRegs r, outBit (clockRegs r))

/-- `GenF`: `n` steps in a row, and their output bits in the order produced (R150). -/
def genF (r : Regs) : Nat → Regs × Bits
  | 0 => (r, [])
  | n + 1 => ((genF (stepF r).1 n).1, (stepF r).2 :: (genF (stepF r).1 n).2)

/-- The bit-wise exclusive-or of two sequences of one length (R154). -/
def xorBits (p z : Bits) : Bits := List.zipWith xor p z

/-- `CryptF`: the keystream from the INITIAL vectors, exclusive-or the payload (R154). -/
def cryptF (iv : Regs) (p : Bits) : Regs × Bits :=
  ((genF iv p.length).1, xorBits p (genF iv p.length).2)

end Sys2Proof.Machine
end

