-- ==== Sys2Proof/Machine/Ops.lean ====
section
/-! DEFINITION. The named operations on the state: writing the registers, responding, raising an error (the engine's exceptions, R177), the checks before a command, and hardware reset (R200). -/

namespace Sys2Proof.Machine

/-- `IA, IB, IC <- k ; RA, RB, RC <- k ; KV <- 1` (R100). -/
def Engine.loadKey (e : Engine) (k : Regs) : Engine := { e with iv := k, cur := k }.setKeyValid

/-- `RA <- IA ; RB <- IB ; RC <- IC` (R104). -/
def Engine.restart (e : Engine) : Engine := { e with cur := e.iv }

/-- `(RA, RB, RC) <- r` (R130, R151, R155). -/
def Engine.setRegs (e : Engine) (r : Regs) : Engine := { e with cur := r }

/-- Replace the engine, leaving the host side alone. -/
def State.setEngine (s : State) (e : Engine) : State := { s with engine := e }

/-- `respond(status, bits)`: the response is delivered and the packet is over; payload bits beyond those
announced are ignored (R81, R57, R205; log 5). -/
def State.respond (s : State) (st : Status) (bits : Bits) : State :=
  { s with din := [], delivered := s.delivered ++ [⟨st, bits⟩] }

/-- `raise <Error>`, the taking of an exception (R10, R177): no engine state changes, the payload is consumed
and discarded, the response is the code with no bits, and the engine accepts the next command.  Nothing is
saved and there is no return from it (R179). -/
def State.raiseError (s : State) (st : Status) : State := s.respond st []

/-- The payload operand of `n` bits is taken before any check of the state (R75: it is consumed even when the
command fails).  With fewer bits presented the engine waits for ever (R205; log 4). -/
def withPayload (n : Nat) (s : State) (k : Bits → Result) : Result :=
  match takePayload n s with
  | some bits => k bits
  | none => .fault .payloadStarved

/-- Check 3 of R178: without a key the command raises NoKey (R172); with one it runs. -/
def withKey (s : State) (k : State) : Result :=
  if s.engine.keyValid then .next k else .next (s.raiseError .noKey)

/-- The stream transform shared by ENCRYPT and DECRYPT (R155, R156): the keystream restarts from the initial
vectors, the registers are left advanced. -/
def State.transform (s : State) (p : Bits) : State :=
  (s.setEngine (s.engine.setRegs (cryptF s.engine.iv p).1)).respond .ok (cryptF s.engine.iv p).2

/-- `n` steps from the current registers (R130, R151), and their bits as the response. -/
def State.generate (s : State) (n : Nat) : State :=
  (s.setEngine (s.engine.setRegs (genF s.engine.cur n).1)).respond .ok (genF s.engine.cur n).2

/-- The registers a hardware reset leaves: no value in the spec, so a free value, draw `k` (R200; log 2). -/
def freeRegs (k : Nat) : Regs := ⟨Config.freeA k, Config.freeB k, Config.freeC k⟩

/-- The engine a hardware reset leaves: `KV = 0`, the six registers free (R200, R211; log 2). -/
def Engine.hardwareReset (e : Engine) (draws : Nat) : Engine :=
  { e with iv := freeRegs draws, cur := freeRegs (draws + 1) }.clearKeyValid

/-- Hardware reset as an event between commands (R200, R201): no response, no command in progress. -/
def State.hardwareReset (s : State) : State :=
  { s with engine := s.engine.hardwareReset s.draws, din := [], draws := s.draws + 2 }

end Sys2Proof.Machine
end

