-- ==== Sys2Proof/Machine/BulkStream.lean ====
section
/-! DEFINITION. The family of 42_bulk_stream.md: GENKS, ENCRYPT, DECRYPT. -/

namespace Sys2Proof.Machine

/-- GENKS `n` (R151): `n` steps from the current registers, never a reset before or after. -/
def execGenks (n : Nat) (s : State) : Result :=
  withKey s (s.generate n)

/-- ENCRYPT (R155): the payload is taken, and discarded when there is no key. -/
def execEncrypt (len : Nat) (s : State) : Result :=
  withPayload len s fun p => withKey s (s.transform p)

/-- DECRYPT (R156): identical to ENCRYPT. -/
def execDecrypt (len : Nat) (s : State) : Result :=
  withPayload len s fun c => withKey s (s.transform c)

end Sys2Proof.Machine
end

