-- ==== Sys2Proof/Machine/ClockingStep.lean ====
section
/-! DEFINITION. The family of 41_clocking_step.md: STEP. -/

namespace Sys2Proof.Machine

/-- STEP (R130): one `StepF` from the current registers; the response is its one output bit. -/
def execStep (s : State) : Result :=
  withKey s
    ((s.setEngine (s.engine.setRegs (stepF s.engine.cur).1)).respond .ok [(stepF s.engine.cur).2])

end Sys2Proof.Machine
end

