-- ==== Sys2Proof/Machine/KeyReset.lean ====
section
/-! DEFINITION. The family of 40_key_and_reset.md: LOADKEY and RESET. -/

namespace Sys2Proof.Machine

/-- LOADKEY (R100 to R103): the payload is taken; a length other than 64 raises InvalidKeyLength and changes
nothing; 64 bits become the initial vectors and the current registers, and KV is set.  It never raises NoKey. -/
def execLoadkey (len : Nat) (s : State) : Result :=
  withPayload len s fun k =>
    if len ≠ Config.keyLen then .next (s.raiseError .invalidKeyLength)
    else .next ((s.setEngine (s.engine.loadKey (split k))).respond .ok [])

/-- RESET (R104 to R106): the registers take the initial vectors; nothing else is written. -/
def execReset (s : State) : Result :=
  withKey s ((s.setEngine s.engine.restart).respond .ok [])

end Sys2Proof.Machine
end

