-- ==== Sys2Proof/Machine/Dispatch.lean ====
section
/-! DEFINITION. The dispatch of the six commands to their meanings. -/

namespace Sys2Proof.Machine

def exec (i : Instr) (s : State) : Host.Outcome State Fault Refusal :=
  match i with
  -- 40_key_and_reset.md
  | .loadkey len => Sys2Proof.Machine.execLoadkey len s
  | .reset => Sys2Proof.Machine.execReset s
  -- 41_clocking_step.md
  | .step => Sys2Proof.Machine.execStep s
  -- 42_bulk_stream.md
  | .genks n => Sys2Proof.Machine.execGenks n s
  | .encrypt len => Sys2Proof.Machine.execEncrypt len s
  | .decrypt len => Sys2Proof.Machine.execDecrypt len s

end Sys2Proof.Machine
end

