-- ==== Sys2Proof/Machine/Accept.lean ====
section
/-! DEFINITION. Accepting what the host presents: a command packet or a hardware reset (R57, R70, R201). -/

namespace Sys2Proof.Machine

/-- The engine takes a packet: its header is decoded, its payload stands on DIN (R70, R80).  An illegal header
raises IllegalCommand and takes no payload (R174); a command executes. -/
def acceptPacket (p : Packet) (s : State) : Result :=
  match decode p.header with
  | .command i => exec i { s with din := p.payload }
  | .illegal _ => .next (s.raiseError .illegalCommand)

/-- One input, in the order the host presents them (R57). -/
def acceptInput (i : Input) (s : State) : Result :=
  match i with
  | .packet p => acceptPacket p s
  | .hardwareReset => .next s.hardwareReset

/-- The next input is consumed; when nothing is presented the engine does nothing (R79, R20; log 12). -/
def acceptNext (s : State) : Result :=
  match s.input with
  | [] => .next s
  | i :: rest => acceptInput i { s with input := rest }

/-- The packet of a header with an all-zero payload of the length it announces. -/
def zeroPacket (h : Header) : Packet := ⟨h, List.replicate (headerPayloadLen h) false⟩

/-- The packet is presented before everything the host was going to present (log 3). -/
def State.present (s : State) (p : Packet) : State := { s with input := .packet p :: s.input }

end Sys2Proof.Machine
end

