-- ==== Sys2Proof/Machine/Step.lean ====
section
/-! DEFINITION. One step of the machine: the next input of the host or of RST_N takes its whole effect (R55, R57). -/

namespace Sys2Proof.Machine

/-- One step (R57): one command packet, or one hardware reset, or nothing when nothing is presented. -/
def step (s : State) : Host.Outcome State Fault Refusal := acceptNext s

/-- The host presents the header whose bits are `w` next, with an all-zero payload of the length it announces
(log 3). -/
def State.withFetchWord (s : State) (nbits w : Nat) : State := s.present (zeroPacket (headerOf nbits w))

end Sys2Proof.Machine
end

