-- ==== Sys2Proof/Machine/Assembler.lean ====
section
/-! DEFINITION. The command notation of R82 and R83: one line, the packets it stands for. -/

namespace Sys2Proof.Machine

/-- One line of a command sequence (R82), with the two pseudo-commands (R83). -/
inductive AsmLine where
  | loadkey (k : Bits)
  | reset
  | step
  | genks (n : Nat)
  | encrypt (p : Bits)
  | decrypt (c : Bits)
  /-- `.word`: a raw header, no payload. -/
  | word (h : Header)
  /-- `CONSTRUCT`, KL's name of LOADKEY. -/
  | construct (k : Bits)
  /-- `GENKSL`, a keystream of any length. -/
  | genksl (n : Nat)
  deriving DecidableEq, Repr

/-- The packet of a command and its payload, none where the count does not fit LEN: "the line cannot be
assembled" (R82; 93 U12). -/
def packetOf (i : Instr) (payload : Bits) : Option Packet :=
  if WellFormed i then some ⟨encode i, payload⟩ else none

/-- The counts of the GENKS commands that `GENKSL n` expands to: `q` full ones and the rest (R83). -/
def genkslCounts (n : Nat) : List Nat :=
  if n = 0 then [0]
  else List.replicate (n / Config.maxLen) Config.maxLen ++
    (if n % Config.maxLen = 0 then [] else [n % Config.maxLen])

/-- The packets of `GENKSL n` (R83). -/
def genkslPackets (n : Nat) : List Packet := (genkslCounts n).map fun k => ⟨encode (.genks k), []⟩

/-- The packets a line stands for (R82, R83). -/
def assemble : AsmLine → Option (List Packet)
  | .loadkey k => (packetOf (.loadkey k.length) k).map ([·])
  | .reset => (packetOf .reset []).map ([·])
  | .step => (packetOf .step []).map ([·])
  | .genks n => (packetOf (.genks n) []).map ([·])
  | .encrypt p => (packetOf (.encrypt p.length) p).map ([·])
  | .decrypt c => (packetOf (.decrypt c.length) c).map ([·])
  | .word h => some [⟨h, []⟩]
  | .construct k => (packetOf (.loadkey k.length) k).map ([·])
  | .genksl n => some (genkslPackets n)

/-- A message longer than one ENCRYPT can carry: RESET, then GENKSL of its length; the host does the
exclusive-or itself (R159). -/
def longMessagePackets (n : Nat) : List Packet := ⟨encode .reset, []⟩ :: genkslPackets n

end Sys2Proof.Machine
end

