-- ==== Sys2Proof/Machine/FrontEnd.lean ====
section
/-! DEFINITION. The front end for character strings, a layer outside the engine (R173), over KL's interface table (R84). -/

namespace Sys2Proof.Machine

/-- KL's operations with KL's operands: strings of characters and a count (R84). -/
inductive ApiCall where
  | construct (key : List Char)
  | reset
  | step
  | generateKeystream (length : Nat)
  | encrypt (plaintext : List Char)
  | decrypt (ciphertext : List Char)
  deriving DecidableEq, Repr

/-- What the front end does with a call. -/
inductive FrontEndAnswer where
  /-- It presents these packets to the engine. -/
  | presents (packets : List Packet)
  /-- It answers this status itself and presents no command. -/
  | rejects (st : Status)
  /-- The message is longer than one header can announce (R159; 93 U12; log 15). -/
  | tooLong
  deriving DecidableEq, Repr

/-- The bit of a character: '0' is 0, '1' is 1, no other character has one (R50). -/
def charBit (c : Char) : Option Bit := if c = '0' then some false else if c = '1' then some true else none

/-- The bit sequence of a string, none where it holds another character (R50, R173; 93 U1: the reference's
coercion is not modelled). -/
def stringBits : List Char → Option Bits
  | [] => some []
  | c :: cs =>
    match charBit c, stringBits cs with
    | some x, some xs => some (x :: xs)
    | _, _ => none

/-- Present one line, or say that it cannot be assembled. -/
def presentLine (l : AsmLine) : FrontEndAnswer :=
  match assemble l with
  | some ps => .presents ps
  | none => .tooLong

/-- A message string: InvalidInputFormat unless every character is '0' or '1' (R173). -/
def presentMessage (line : Bits → AsmLine) (text : List Char) : FrontEndAnswer :=
  match stringBits text with
  | none => .rejects .invalidInputFormat
  | some p => presentLine (line p)

/-- A key string: the length test first, the character test second (R173, R178; log 15). -/
def presentKey (key : List Char) : FrontEndAnswer :=
  if key.length ≠ Config.keyLen then .rejects .invalidKeyLength else presentMessage .loadkey key

/-- The front end (R173, R84). -/
def frontEnd : ApiCall → FrontEndAnswer
  | .construct key => presentKey key
  | .reset => presentLine .reset
  | .step => presentLine .step
  | .generateKeystream length => presentLine (.genksl length)
  | .encrypt plaintext => presentMessage .encrypt plaintext
  | .decrypt ciphertext => presentMessage .decrypt ciphertext

end Sys2Proof.Machine
end

