-- ==== Sys2Proof/Machine/Transport.lean ====
section
/-! DEFINITION. The port-level transport: the ports of R85, beat by beat (R200, R201, R205, R209, R210, R213, R214). It carries the atomic commands and adds no meaning (R86). -/

namespace Sys2Proof.Machine

/-- The command in progress (R29 (e), R213).  `more` is the number of beats after the next one, so a command
with no beat left is never in progress. -/
inductive Phase where
  /-- No command in progress: `CMD_READY = 1`. -/
  | idle
  /-- STEP and GENKS: one step a beat. -/
  | stepping (more : Nat)
  /-- ENCRYPT and DECRYPT: one step a beat, which happens only with a payload bit. -/
  | crypting (more : Nat)
  /-- A LOADKEY of 64 bits: the key bits taken so far (log 11). -/
  | keying (taken : Bits) (more : Nat)
  /-- A failing command discards its payload, then responds with the status. -/
  | draining (more : Nat) (st : Status)
  deriving DecidableEq, Repr

/-- The engine behind its ports. -/
structure PortState where
  engine : Engine
  phase : Phase
  /-- Present exactly when `DOUT_VALID = 1`: the held payload bit, 0 for STEP and GENKS (R213). -/
  held : Option Bit
  /-- Present exactly when `RSP_VALID = 1`: the status on `RSP_STATUS` (R85). -/
  rsp : Option Status
  /-- The model's own counter of free values (log 2). -/
  draws : Nat
  deriving DecidableEq, Repr

/-- The input ports at one rising edge of `CLK`.  A port has a value only when its valid is 1 (93 U7). -/
structure PortsIn where
  /-- `RST_N`, active low. -/
  rstN : Bool
  /-- `CMD`, present exactly when `CMD_VALID = 1`. -/
  cmd : Option Header
  /-- `DIN`, present exactly when `DIN_VALID = 1`. -/
  din : Option Bit
  deriving DecidableEq, Repr

/-- The output ports in one cycle (R85). -/
structure PortsOut where
  cmdReady : Bool
  dinReady : Bool
  /-- `DOUT`, present exactly when `DOUT_VALID = 1`. -/
  dout : Option Bit
  /-- `RSP_STATUS`, present exactly when `RSP_VALID = 1`. -/
  rspStatus : Option Status
  deriving DecidableEq, Repr

/-- `CMD_READY`: the engine is idle (R85, R209). -/
def Phase.cmdReady : Phase → Bool
  | .idle => true
  | .stepping _ => false
  | .crypting _ => false
  | .keying _ _ => false
  | .draining _ _ => false

/-- `DIN_READY`: a payload bit is wanted, 0 outside a payload (R205). -/
def Phase.dinReady : Phase → Bool
  | .idle => false
  | .stepping _ => false
  | .crypting _ => true
  | .keying _ _ => true
  | .draining _ _ => true

/-- The output ports of a cycle: `DOUT` is the held bit exclusive-or `Out(RA, RB, RC)` of the new values
(R213).  While `RST_N` is 0 nothing is valid (R200), and that the two ready outputs are 0 too is a DESIGN CHOICE
(log 9). -/
def ports (rstN : Bool) (p : PortState) : PortsOut :=
  if rstN then ⟨p.phase.cmdReady, p.phase.dinReady, p.held.map (· ^^ outBit p.engine.cur), p.rsp⟩
  else ⟨false, false, none, none⟩

/-- The next cycle with the given engine and phase and no output valid. -/
def PortState.quiet (p : PortState) (e : Engine) (ph : Phase) : PortState :=
  { p with engine := e, phase := ph, held := none, rsp := none }

/-- The next cycle with one response bit valid, the status too if this was the last beat (R213; log 10). -/
def PortState.emit (p : PortState) (e : Engine) (bit : Bit) (ph : Phase) : PortState :=
  { p with engine := e, phase := ph, held := some bit, rsp := if ph.cmdReady then some .ok else none }

/-- The command is over with this status and no bit in this cycle. -/
def PortState.finish (p : PortState) (e : Engine) (st : Status) : PortState :=
  { p with engine := e, phase := .idle, held := none, rsp := some st }

/-- The next cycle of a command of `n` beats after this one: over with `st` when there are none, else the phase
that `next` gives for the beats after the next. -/
def PortState.begin (p : PortState) (e : Engine) (st : Status) (next : Nat → Phase) : Nat → PortState
  | 0 => p.finish e st
  | more + 1 => p.quiet e (next more)

/-- The beat that accepts a header (R213): an illegal header, a command without its key and a LOADKEY of a
wrong length fail, in the order of R178, and the reset inside RESET, ENCRYPT and DECRYPT takes this beat. -/
def acceptHeader (p : PortState) (h : Header) : PortState :=
  match decode h with
  | .illegal _ => p.finish p.engine .illegalCommand
  | .command (.loadkey len) =>
    if len = Config.keyLen then p.begin p.engine .ok (.keying []) len
    else p.begin p.engine .invalidKeyLength (.draining · .invalidKeyLength) len
  | .command .reset =>
    if p.engine.keyValid then p.finish p.engine.restart .ok else p.finish p.engine .noKey
  | .command .step =>
    if p.engine.keyValid then p.quiet p.engine (.stepping 0) else p.finish p.engine .noKey
  | .command (.genks n) =>
    if p.engine.keyValid then p.begin p.engine .ok .stepping n else p.finish p.engine .noKey
  | .command (.encrypt len) =>
    if p.engine.keyValid then p.begin p.engine.restart .ok .crypting len
    else p.begin p.engine .noKey (.draining · .noKey) len
  | .command (.decrypt len) =>
    if p.engine.keyValid then p.begin p.engine.restart .ok .crypting len
    else p.begin p.engine .noKey (.draining · .noKey) len

/-- The engine after one more step. -/
def Engine.advance (e : Engine) : Engine := e.setRegs (stepF e.cur).1

/-- The phase that follows a beat of which `more` are left. -/
def afterBeat (next : Nat → Phase) : Nat → Phase
  | 0 => .idle
  | more + 1 => next more

/-- One payload beat of a LOADKEY of 64 bits: with the last bit the key is loaded (R100, R213; log 11). -/
def keyBeat (p : PortState) (taken : Bits) (bit : Bit) : Nat → PortState
  | 0 => p.finish (p.engine.loadKey (split (taken ++ [bit]))) .ok
  | more + 1 => p.quiet p.engine (.keying (taken ++ [bit]) more)

/-- One discarded payload bit of a failing command (R75, R213). -/
def drainBeat (p : PortState) (st : Status) : Nat → PortState
  | 0 => p.finish p.engine st
  | more + 1 => p.quiet p.engine (.draining more st)

/-- The edge in a running command or at idle, `RST_N = 1` (R213).  Without the payload bit it wants, a command
makes no progress (R205); a header is taken at idle only (R209); a payload bit outside a payload is not taken. -/
def beat (p : PortState) (i : PortsIn) : PortState :=
  match p.phase with
  | .idle =>
    match i.cmd with
    | none => p.quiet p.engine .idle
    | some h => acceptHeader p h
  | .stepping more => p.emit p.engine.advance false (afterBeat .stepping more)
  | .crypting more =>
    match i.din with
    | none => p.quiet p.engine (.crypting more)
    | some bit => p.emit p.engine.advance bit (afterBeat .crypting more)
  | .keying taken more =>
    match i.din with
    | none => p.quiet p.engine (.keying taken more)
    | some bit => keyBeat p taken bit more
  | .draining more st =>
    match i.din with
    | none => p.quiet p.engine (.draining more st)
    | some _ => drainBeat p st more

/-- The reset state of R200, whatever the command had done so far (R201): no command in progress, nothing
valid, `KV = 0`, the six registers free. -/
def PortState.hardwareReset (p : PortState) : PortState :=
  ⟨p.engine.hardwareReset p.draws, .idle, none, none, p.draws + 2⟩

/-- One rising edge of `CLK` (R85): `RST_N = 0` overrides everything (R201).  The first edge that samples
`RST_N = 1` again is a beat and takes a presented header: DESIGN CHOICE (log 17). -/
def edge (p : PortState) (i : PortsIn) : PortState := if i.rstN then beat p i else p.hardwareReset

/-- Right after hardware reset (R200; log 1). -/
def PortState.reset : PortState := ⟨Engine.reset, .idle, none, none, 0⟩

/-- The edges of a list of inputs, one after another: the state after them. -/
def runEdges (p : PortState) : List PortsIn → PortState
  | [] => p
  | i :: is => runEdges (edge p i) is

/-- `RST_N` as the cycle after the edge `i` shows it, `is` being the edges that follow: 0 only where neither the edge
before nor the edge after the cycle samples a 1.  Two DESIGN CHOICES stand here.  Where `RST_N` falls inside the cycle
it is shown as 1 (log 16).  Where `RST_N` is released in the cycle it is shown as 1 too, so `CMD_READY = 1` in the
cycle that ends at the first rising edge after release, and that edge takes a presented header, as R85 has it for a
valid and a ready of 1; R200 says no more than "`CMD_READY = 1` after release" (log 17). -/
def cycleRstN (i : PortsIn) : List PortsIn → Bool
  | [] => i.rstN
  | j :: _ => i.rstN || j.rstN

/-- The output ports in the cycle after each of those edges (R213: "in the following cycle").  A bit or status that is
valid when `RST_N` falls inside its cycle counts as delivered: DESIGN CHOICE (log 16), R201 does not say if it was.
`CMD_READY` is 1 in the cycle in which `RST_N` is released: DESIGN CHOICE (log 17). -/
def observe (p : PortState) : List PortsIn → List PortsOut
  | [] => []
  | i :: is => ports (cycleRstN i is) (edge p i) :: observe (edge p i) is

/-- The response bits a host collects from those cycles, in order (R210). -/
def bitsOf (os : List PortsOut) : Bits := os.filterMap (·.dout)

/-- The statuses a host collects from those cycles, in order. -/
def statusesOf (os : List PortsOut) : List Status := os.filterMap (·.rspStatus)

/-- The host presents a header, then on each edge a payload bit or nothing (`none` keeps `DIN_VALID = 0`). -/
def drive (h : Header) (dins : List (Option Bit)) : List PortsIn :=
  ⟨true, some h, none⟩ :: dins.map fun d => ⟨true, none, d⟩

/-- The payload bits such a schedule presents, in order. -/
def presentedBits (dins : List (Option Bit)) : Bits := dins.filterMap id

/-- The beats a command takes after its header when no payload bit is late: one per step, one per payload bit
(R214). -/
def beatsAfterHeader (kv : Bool) (i : Instr) : Nat :=
  match i with
  | .loadkey len => len
  | .reset => 0
  | .step => if kv then 1 else 0
  | .genks n => if kv then n else 0
  | .encrypt len => len
  | .decrypt len => len

/-- The same for a header: an illegal one takes no further beat (R214). -/
def headerBeats (kv : Bool) (h : Header) : Nat :=
  match decode h with
  | .command i => beatsAfterHeader kv i
  | .illegal _ => 0

end Sys2Proof.Machine
end

