-- ==== Sys2Proof/Safety.lean ====
section
/-! DEFINITION. What the claims are about: the reachable states with a key (R30), the quiet host interface, which commands need a key and which a payload. -/

namespace Sys2Proof.Machine

/-- The sequence of `len` digits that a decimal numeral spells, leftmost digit first: register and stream values
are always written so (D23; R7), leading zeros as `len` says. -/
def digits : Nat → Nat → Bits
  | 0, _ => []
  | len + 1, d => (d / 10 ^ len % 10 == 1) :: digits len d

/-- The three registers spelled as digits. -/
def regsOf (a b c : Nat) : Regs := ⟨ofBits 19 (digits 19 a), ofBits 22 (digits 22 b), ofBits 23 (digits 23 c)⟩

/-- KL's example key, KEY0 of 40_key_and_reset.md. -/
def key0 : Bits := digits 64 1101001110111100100101101101111010100100111101111010010011011010

/-- The registers hold the initial vectors advanced by some number of steps (R30). -/
def Engine.onKeystream (e : Engine) : Prop := ∃ n, e.cur = (genF e.iv n).1

/-- The reachable-state invariant of R30: with `KV = 1`, the registers are on the key's keystream. -/
def Engine.Inv (e : Engine) : Prop := e.kv = true → e.onKeystream

/-- Between commands no payload bit stands on DIN: a packet is over with its response (R57, R205). -/
def State.Quiet (s : State) : Prop := s.din = []

/-- What a host that keeps the payload duty of R205 presents: the payload bits of the header, all of them. -/
def Packet.Complete (p : Packet) : Prop := headerPayloadLen p.header ≤ p.payload.length

/-- Every packet still to be presented keeps the payload duty (R205). -/
def State.HostKeepsDuty (s : State) : Prop := ∀ p, Input.packet p ∈ s.input → p.Complete

/-- The commands that raise NoKey while `KV = 0`: all but LOADKEY (R172, R176). -/
def needsKey : Instr → Bool
  | .loadkey _ => false
  | .reset => true
  | .step => true
  | .genks _ => true
  | .encrypt _ => true
  | .decrypt _ => true

/-- The length of the response bits of a command that passes its checks (R81). -/
def okBits : Instr → Nat
  | .loadkey _ => 0
  | .reset => 0
  | .step => 1
  | .genks n => n
  | .encrypt len => len
  | .decrypt len => len

/-- The status of a legal command, in the order of R178: key length for LOADKEY, the key for the rest. -/
def statusOf (kv : Bool) (i : Instr) : Status :=
  match i with
  | .loadkey len => if len = Config.keyLen then .ok else .invalidKeyLength
  | .reset => if kv then .ok else .noKey
  | .step => if kv then .ok else .noKey
  | .genks _ => if kv then .ok else .noKey
  | .encrypt _ => if kv then .ok else .noKey
  | .decrypt _ => if kv then .ok else .noKey

/-- Two states that agree on everything but the contents of the six registers. -/
def State.AgreeButRegs (s t : State) : Prop :=
  s.engine.kv = t.engine.kv ∧ s.input = t.input ∧ s.din = t.din ∧ s.delivered = t.delivered ∧
    s.draws = t.draws

/-- Both answer alike, and where they go on the states agree but for the six registers. -/
def AlikeButRegs : Result → Result → Prop
  | .next s, .next t => s.AgreeButRegs t
  | .fault f, .fault g => f = g
  | .refused f, .refused g => f = g
  | _, _ => False

/-- The commands one after another on one engine, each with the payload the host sends with it (R57): the
final state, or the first stop. -/
def execAll (s : State) : List (Instr × Bits) → Result
  | [] => .next s
  | (i, p) :: rest =>
    match exec i { s with din := p } with
    | .next t => execAll t rest
    | .fault f => .fault f
    | .refused r => .refused r

end Sys2Proof.Machine
end

