-- ==== Sys2Proof/Certificates/Slice0/Obligations.lean ====
section
/-! DEFINITION. The statements about A51E, from the numbered rules of its spec. -/

open Sys2Proof Sys2Proof.Machine

/-! ## 30_encoding.md: the header -/

/-- Rows of 95_test_vectors.md section 2.8 (R80): the named headers decode as listed, `none` being Illegal. -/
def Obligations.ListedHeadersDecodeAsTheSpecSays : Prop :=
  decodeTableWord 32 0x00000000 = none ∧ decodeTableWord 32 0x1FFFFFFF = none ∧
  decodeTableWord 32 0x20000040 = some (.loadkey 64) ∧ decodeTableWord 32 0x20000000 = some (.loadkey 0) ∧
  decodeTableWord 32 0x21000040 = none ∧ decodeTableWord 32 0x40000000 = some .reset ∧
  decodeTableWord 32 0x40000001 = none ∧ decodeTableWord 32 0x60000000 = some .step ∧
  decodeTableWord 32 0x60000008 = none ∧ decodeTableWord 32 0x80000000 = some (.genks 0) ∧
  decodeTableWord 32 0x80000008 = some (.genks 8) ∧
  decodeTableWord 32 0x80FFFFFF = some (.genks 16777215) ∧ decodeTableWord 32 0x90000008 = none ∧
  decodeTableWord 32 0xA000002F = some (.encrypt 47) ∧ decodeTableWord 32 0xA0000000 = some (.encrypt 0) ∧
  decodeTableWord 32 0xC000002F = some (.decrypt 47) ∧ decodeTableWord 32 0xE0000000 = none ∧
  decodeTableWord 32 0xFFFFFFFF = none

/-- R80: which header is which command, and which are Illegal, with the fields as integers: OP is `h / 2^29`,
RSV is `h / 2^24 % 32`, LEN is `h % 2^24`. -/
def Obligations.DecodeFollowsTheRule : Prop :=
  ∀ h : Header,
    (∀ i, decode h = .command i ↔
      h.toNat / 2 ^ 24 % 32 = 0 ∧
        ((h.toNat / 2 ^ 29 = 1 ∧ i = .loadkey (h.toNat % 2 ^ 24)) ∨
          (h.toNat / 2 ^ 29 = 2 ∧ h.toNat % 2 ^ 24 = 0 ∧ i = .reset) ∨
          (h.toNat / 2 ^ 29 = 3 ∧ h.toNat % 2 ^ 24 = 0 ∧ i = .step) ∨
          (h.toNat / 2 ^ 29 = 4 ∧ i = .genks (h.toNat % 2 ^ 24)) ∨
          (h.toNat / 2 ^ 29 = 5 ∧ i = .encrypt (h.toNat % 2 ^ 24)) ∨
          (h.toNat / 2 ^ 29 = 6 ∧ i = .decrypt (h.toNat % 2 ^ 24)))) ∧
    ((∃ w, decode h = .illegal w) ↔
      h.toNat / 2 ^ 24 % 32 ≠ 0 ∨ h.toNat / 2 ^ 29 = 0 ∨ h.toNat / 2 ^ 29 = 7 ∨
        ((h.toNat / 2 ^ 29 = 2 ∨ h.toNat / 2 ^ 29 = 3) ∧ h.toNat % 2 ^ 24 ≠ 0))

/-- R73: a header selects a row of the opcode table exactly when `(H AND mask) == match`. -/
def Obligations.MatchAndMaskSelectTheRow : Prop :=
  ∀ h : Header,
    (h &&& 0xFF000000#32 = 0x20000000#32 ↔ ∃ n, decode h = .command (.loadkey n)) ∧
    (h &&& 0xFFFFFFFF#32 = 0x40000000#32 ↔ decode h = .command .reset) ∧
    (h &&& 0xFFFFFFFF#32 = 0x60000000#32 ↔ decode h = .command .step) ∧
    (h &&& 0xFF000000#32 = 0x80000000#32 ↔ ∃ n, decode h = .command (.genks n)) ∧
    (h &&& 0xFF000000#32 = 0xA0000000#32 ↔ ∃ n, decode h = .command (.encrypt n)) ∧
    (h &&& 0xFF000000#32 = 0xC0000000#32 ↔ ∃ n, decode h = .command (.decrypt n))

/-- R71, R73, R74, R80: every command whose count fits LEN, with every count, decodes from its own header. -/
def Obligations.DecodeOfEncodeIsTheCommand : Prop :=
  ∀ i : Instr, WellFormed i = true → decode (encode i) = .command i

/-- R79, R80: a header that decodes to a command is the only header of that command, and its count fits LEN. -/
def Obligations.EachCommandHasOneHeader : Prop :=
  ∀ (h : Header) (i : Instr), decode h = .command i → WellFormed i = true ∧ encode i = h

/-- R75: the packet length is known from the header alone. -/
def Obligations.PayloadLengthIsKnownFromTheHeader : Prop :=
  ∀ h : Header,
    (∀ n, decode h = .command (.loadkey n) → headerPayloadLen h = n) ∧
    (∀ n, decode h = .command (.encrypt n) → headerPayloadLen h = n) ∧
    (∀ n, decode h = .command (.decrypt n) → headerPayloadLen h = n) ∧
    (decode h = .command .reset ∨ decode h = .command .step ∨ (∃ n, decode h = .command (.genks n)) ∨
      (∃ w, decode h = .illegal w) → headerPayloadLen h = 0)

/-! ## The step of the machine: packets, hardware reset, nothing -/

/-- R57, R80: when the presented header decodes to a command, the step is that command's execution on the state
with the packet taken off the input and its payload on DIN. -/
def Obligations.StepRunsTheDecodedCommand : Prop :=
  ∀ (s : State) (p : Packet) (rest : List Input) (i : Instr),
    s.input = .packet p :: rest → decode p.header = .command i →
      step s = exec i { s with input := rest, din := p.payload }

/-- R174, R76 to R78: an illegal header raises IllegalCommand: no engine state changes, no payload is taken, the
response is status 4 with no bits. -/
def Obligations.IllegalHeaderRaisesIllegalCommand : Prop :=
  ∀ (s : State) (p : Packet) (rest : List Input) (w : Illegal),
    s.input = .packet p :: rest → decode p.header = .illegal w →
      step s = .next
        { s with input := rest, din := [], delivered := s.delivered ++ [⟨.illegalCommand, []⟩] } ∧
      Status.code .illegalCommand = 4#3

/-- R20, R79: when the host presents nothing, the engine does nothing. -/
def Obligations.NothingPresentedNothingDone : Prop := ∀ s : State, s.input = [] → step s = .next s

/-- R200, R201, R202: a hardware reset clears KV, delivers no response and leaves no command in progress; a
RESET command after it raises NoKey. -/
def Obligations.HardwareResetForgetsTheKey : Prop :=
  ∀ (s : State) (rest : List Input), s.input = .hardwareReset :: rest →
    ∃ t, step s = .next t ∧ t.engine.kv = false ∧ t.input = rest ∧ t.din = [] ∧
      t.delivered = s.delivered ∧
      exec .reset t = .next { t with delivered := t.delivered ++ [⟨.noKey, []⟩] }

/-- R34, R35, R200: after hardware reset KV is 0 and the engine is idle: at its ports CMD_READY = 1,
DOUT_VALID = 0, RSP_VALID = 0.  That nothing is presented or delivered is the model's choice (log 3), and so is that
the two reset states hold the same contents of the six registers, to which the spec gives no value (log 1). -/
def Obligations.ResetStateIsIdleWithoutKey : Prop :=
  State.reset.engine.kv = false ∧ State.reset.input = [] ∧ State.reset.delivered = [] ∧
    PortState.reset.engine = State.reset.engine ∧
    ports true PortState.reset = ⟨true, false, none, none⟩

/-! ## 60_exceptions.md -/

/-- R175: the five status codes. -/
def Obligations.StatusCodesAreAsListed : Prop :=
  Status.code .ok = 0#3 ∧ Status.code .invalidKeyLength = 1#3 ∧ Status.code .invalidInputFormat = 2#3 ∧
    Status.code .noKey = 3#3 ∧ Status.code .illegalCommand = 4#3

/-- R178: the order of the checks.  The first that applies decides the status of the response: an illegal header,
then for LOADKEY the length, for every other command KV. -/
def Obligations.ChecksAreMadeInOrder : Prop :=
  ∀ (s t : State) (p : Packet) (rest : List Input), s.input = .packet p :: rest → step s = .next t →
    ∃ bits, t.delivered = s.delivered ++
      [⟨match decode p.header with
        | .illegal _ => .illegalCommand
        | .command (.loadkey len) => if len ≠ 64 then .invalidKeyLength else .ok
        | .command _ => if s.engine.kv = false then .noKey else .ok, bits⟩]

/-- R177, R10: a command that does not respond OK has changed no engine state; its response has no bits, its
payload is gone, and the rest of the input stands. -/
def Obligations.ErrorsChangeNothing : Prop :=
  ∀ (s t : State) (p : Packet) (rest : List Input) (r : Response),
    s.input = .packet p :: rest → step s = .next t → t.delivered = s.delivered ++ [r] → r.status ≠ .ok →
      t.engine = s.engine ∧ r.bits = [] ∧ t.din = [] ∧ t.input = rest ∧ t.draws = s.draws

/-- R81: every packet that carries the payload its header announces gets exactly one response, whose bits have
the length of the rule; the engine never answers InvalidInputFormat (R175). -/
def Obligations.EveryPacketGetsOneResponse : Prop :=
  ∀ (s : State) (p : Packet) (rest : List Input), s.input = .packet p :: rest → p.Complete →
    ∃ t r, step s = .next t ∧ t.delivered = s.delivered ++ [r] ∧ r.status ≠ .invalidInputFormat ∧
      (r.status ≠ .ok → r.bits = []) ∧
      (r.status = .ok → ∃ i, decode p.header = .command i ∧ r.bits.length = okBits i)

/-- R205 (93 U6, `stuck`): the machine stops, waiting for payload bits, exactly when the packet carries fewer
than its header announces. -/
def Obligations.MissingPayloadLeavesTheEngineWaiting : Prop :=
  ∀ (s : State) (p : Packet) (rest : List Input), s.input = .packet p :: rest →
    (step s = .fault .payloadStarved ↔ ¬ p.Complete)

/-- R172: while KV = 0 the five commands other than LOADKEY raise NoKey; the payload of ENCRYPT and DECRYPT is
taken and discarded, and nothing changes. -/
def Obligations.CommandsWithoutKeyRaiseNoKey : Prop :=
  ∀ (i : Instr) (s : State), needsKey i = true → s.engine.kv = false → payloadLen i ≤ s.din.length →
    exec i s = .next { s with din := [], delivered := s.delivered ++ [⟨.noKey, []⟩] }

/-! ## 40_key_and_reset.md -/

/-- R100: a LOADKEY of 64 bits writes the parts of the key to the initial vectors and to the registers, sets KV
and responds OK with no bits; nothing else changes. -/
def Obligations.LoadkeyInstallsTheKey : Prop :=
  ∀ s : State, 64 ≤ s.din.length →
    exec (.loadkey 64) s = .next
      { s with
        engine := ⟨true, split (s.din.take 64), split (s.din.take 64)⟩
        din := []
        delivered := s.delivered ++ [⟨.ok, []⟩] }

/-- R101, R102, R171: a LOADKEY of any other length responds InvalidKeyLength and changes nothing; its payload is
taken and discarded. -/
def Obligations.LoadkeyOfOtherLengthChangesNothing : Prop :=
  ∀ (len : Nat) (s : State), len ≠ 64 → len ≤ s.din.length →
    exec (.loadkey len) s = .next
      { s with din := [], delivered := s.delivered ++ [⟨.invalidKeyLength, []⟩] }

/-- R51: key bit `K[j]` becomes `IA[j]`, `IB[j-19]` or `IC[j-41]`. -/
def Obligations.SplitFollowsTheKeyMap : Prop :=
  ∀ k : Bits, k.length = 64 →
    (∀ j, j ≤ 18 → k[j]? = some ((split k).a.getLsbD j)) ∧
    (∀ j, 19 ≤ j → j ≤ 40 → k[j]? = some ((split k).b.getLsbD (j - 19))) ∧
    (∀ j, 41 ≤ j → j ≤ 63 → k[j]? = some ((split k).c.getLsbD (j - 41)))

/-- R25, R51: `IA ++ IB ++ IC` is the key, and every content of the three registers is the split of the one key it
joins to. -/
def Obligations.InitialVectorsJoinToTheKey : Prop :=
  (∀ k : Bits, k.length = 64 → joinRegs (split k) = k) ∧
    (∀ r : Regs, (joinRegs r).length = 64 ∧ split (joinRegs r) = r)

/-- R104: RESET with a key loads the registers from the initial vectors and responds OK with no bits; nothing
else changes. -/
def Obligations.ResetRestoresTheRegisters : Prop :=
  ∀ s : State, s.engine.kv = true →
    exec .reset s = .next
      { s with
        engine := ⟨s.engine.kv, s.engine.iv, s.engine.iv⟩
        din := []
        delivered := s.delivered ++ [⟨.ok, []⟩] }

/-- R105: two RESETs leave the same engine as one, and a RESET directly after a successful LOADKEY changes no
engine state. -/
def Obligations.ResetIsIdempotent : Prop :=
  (∀ s t u : State, exec .reset s = .next t → exec .reset t = .next u → u.engine = t.engine) ∧
    (∀ s t u : State, exec (.loadkey 64) s = .next t → exec .reset t = .next u → u.engine = t.engine)

/-- R106, R103: whatever commands follow a successful LOADKEY, none of them another successful LOADKEY, a RESET
leaves exactly the engine state the LOADKEY left. -/
def Obligations.ResetAlwaysReturnsToTheLoadedState : Prop :=
  ∀ (s t u v : State) (cs : List (Instr × Bits)), exec (.loadkey 64) s = .next t →
    (∀ c ∈ cs, c.1 ≠ .loadkey 64) → execAll t cs = .next u → exec .reset u = .next v →
      v.engine = t.engine

/-! ## 41_clocking_step.md -/

/-- R120: `Maj` is 1 when at least two of its three bits are 1, and is symmetric. -/
def Obligations.MajorityIsTwoOutOfThree : Prop :=
  ∀ x y z : Bit,
    (maj x y z = true ↔ 2 ≤ x.toNat + y.toNat + z.toNat) ∧ maj x y z = maj y x z ∧ maj x y z = maj x z y

/-- R121, R122: the majority is of the bits 8, 10, 10 of the current registers; a register clocks when its bit
equals it; at least two registers clock; one fails to clock exactly when its bit differs from both others. -/
def Obligations.ClockEnablesFollowTheMajority : Prop :=
  ∀ r : Regs,
    majOf r = maj (r.a.getLsbD 8) (r.b.getLsbD 10) (r.c.getLsbD 10) ∧
    (ckenA r = true ↔ r.a.getLsbD 8 = majOf r) ∧ (ckenB r = true ↔ r.b.getLsbD 10 = majOf r) ∧
    (ckenC r = true ↔ r.c.getLsbD 10 = majOf r) ∧
    2 ≤ (ckenA r).toNat + (ckenB r).toNat + (ckenC r).toNat ∧
    (ckenA r = false ↔ r.a.getLsbD 8 ≠ r.b.getLsbD 10 ∧ r.a.getLsbD 8 ≠ r.c.getLsbD 10) ∧
    (ckenB r = false ↔ r.b.getLsbD 10 ≠ r.a.getLsbD 8 ∧ r.b.getLsbD 10 ≠ r.c.getLsbD 10) ∧
    (ckenC r = false ↔ r.c.getLsbD 10 ≠ r.a.getLsbD 8 ∧ r.c.getLsbD 10 ≠ r.b.getLsbD 10)

/-- R123: the feedback bits. -/
def Obligations.FeedbackIsTheXorOfTheTaps : Prop :=
  (∀ a : RegA, fbA a = (a.getLsbD 13 ^^ a.getLsbD 16 ^^ a.getLsbD 17 ^^ a.getLsbD 18)) ∧
    (∀ b : RegB, fbB b = (b.getLsbD 20 ^^ b.getLsbD 21)) ∧
    (∀ c : RegC, fbC c = (c.getLsbD 7 ^^ c.getLsbD 20 ^^ c.getLsbD 21 ^^ c.getLsbD 22))

/-- R124: `Shift(v, f)` is `[f] ++ v[0..n-1)`: `f` at the front, every other bit from the index below, the old
last bit dropped, the length kept. -/
def Obligations.ShiftPutsTheFeedbackInFront : Prop :=
  ∀ (n : Nat) (v : BitVec n) (f : Bit), 0 < n →
    toBits (shift v f) = f :: (toBits v).take (n - 1) ∧
      (shift v f).getLsbD 0 = f ∧
      (∀ i, 1 ≤ i → i < n → (shift v f).getLsbD i = v.getLsbD (i - 1))

/-- R125: each register is shifted with its own pre-step feedback or held, all three from the same pre-step
state. -/
def Obligations.RegistersUpdateSimultaneously : Prop :=
  ∀ r : Regs,
    (stepF r).1 = ⟨if ckenA r = true then shift r.a (fbA r.a) else r.a,
      if ckenB r = true then shift r.b (fbB r.b) else r.b,
      if ckenC r = true then shift r.c (fbC r.c) else r.c⟩

/-- R126, R127, R206: the output bit is taken from the last bits after the update; in terms of the state before
the step it is the bit below the last of a register that clocks and the last of one that holds. -/
def Obligations.OutputIsTakenAfterTheUpdate : Prop :=
  ∀ r : Regs,
    (stepF r).2 = ((stepF r).1.a.getLsbD 18 ^^ (stepF r).1.b.getLsbD 21 ^^ (stepF r).1.c.getLsbD 22) ∧
    (stepF r).2 = ((if ckenA r = true then r.a.getLsbD 17 else r.a.getLsbD 18) ^^
      (if ckenB r = true then r.b.getLsbD 20 else r.b.getLsbD 21) ^^
      (if ckenC r = true then r.c.getLsbD 21 else r.c.getLsbD 22))

/-- R128: the worked step from `Split(KEY0)`. -/
def Obligations.WorkedStepFromKey0 : Prop :=
  split key0 = regsOf 1101001110111100100 1011011011110101001001 11101111010010011011010 ∧
    majOf (split key0) = true ∧ ckenA (split key0) = true ∧ ckenB (split key0) = true ∧
    ckenC (split key0) = false ∧ fbA (split key0).a = false ∧ fbB (split key0).b = true ∧
    stepF (split key0) =
      (regsOf 0110100111011110010 1101101101111010100100 11101111010010011011010, false)

/-- R130: STEP with a key writes the registers of one `StepF` and responds OK with its bit; nothing else
changes. -/
def Obligations.StepCommandTakesOneStep : Prop :=
  ∀ s : State, s.engine.kv = true →
    exec .step s = .next
      { s with
        engine := ⟨s.engine.kv, s.engine.iv, (stepF s.engine.cur).1⟩
        din := []
        delivered := s.delivered ++ [⟨.ok, [(stepF s.engine.cur).2]⟩] }

/-- R132 (a), R207: an all-0 register stays all 0 in every step; with all three all 0 any number of steps leaves
them so and outputs 0 only. -/
def Obligations.AllZeroRegistersStayZero : Prop :=
  (∀ r : Regs, (r.a = 0#19 → (stepF r).1.a = 0#19) ∧ (r.b = 0#22 → (stepF r).1.b = 0#22) ∧
      (r.c = 0#23 → (stepF r).1.c = 0#23)) ∧
    (∀ n, genF ⟨0#19, 0#22, 0#23⟩ n = (⟨0#19, 0#22, 0#23⟩, List.replicate n false))

/-- R132 (c): a step leaves the registers unchanged exactly when every register that clocks in it is all 0. -/
def Obligations.StepFixesExactlyZeroClockedRegisters : Prop :=
  ∀ r : Regs, (stepF r).1 = r ↔
    (ckenA r = true → r.a = 0#19) ∧ (ckenB r = true → r.b = 0#22) ∧ (ckenC r = true → r.c = 0#23)

/-- R132 (f): with two registers all 0 and a 1 at the clocking index of the third, the state never changes and
every output is the third register's last bit. -/
def Obligations.TwoZeroRegistersStopTheThird : Prop :=
  (∀ (a : RegA) (n : Nat), a.getLsbD 8 = true →
      genF ⟨a, 0#22, 0#23⟩ n = (⟨a, 0#22, 0#23⟩, List.replicate n (a.getLsbD 18))) ∧
    (∀ (b : RegB) (n : Nat), b.getLsbD 10 = true →
      genF ⟨0#19, b, 0#23⟩ n = (⟨0#19, b, 0#23⟩, List.replicate n (b.getLsbD 21))) ∧
    (∀ (c : RegC) (n : Nat), c.getLsbD 10 = true →
      genF ⟨0#19, 0#22, c⟩ n = (⟨0#19, 0#22, c⟩, List.replicate n (c.getLsbD 22)))

/-! ## 42_bulk_stream.md -/

/-- R151: GENKS `n` with a key writes the registers of `n` steps from the current ones and responds OK with their
`n` bits; nothing else changes. -/
def Obligations.GenksRunsTheCountedSteps : Prop :=
  ∀ (n : Nat) (s : State), s.engine.kv = true →
    exec (.genks n) s = .next
      { s with
        engine := ⟨s.engine.kv, s.engine.iv, (genF s.engine.cur n).1⟩
        din := []
        delivered := s.delivered ++ [⟨.ok, (genF s.engine.cur n).2⟩] }

/-- R152: `GENKS m` then `GENKS n` gives the bits and the engine of `GENKS (m+n)`, and `n` STEPs those of
`GENKS n`; so do the functions. -/
def Obligations.KeystreamContinues : Prop :=
  (∀ (r : Regs) (m n : Nat),
      genF r (m + n) = ((genF (genF r m).1 n).1, (genF r m).2 ++ (genF (genF r m).1 n).2)) ∧
    (∀ (s : State) (m n : Nat), s.engine.kv = true →
      ∃ t u u1 u2, exec (.genks (m + n)) s = .next t ∧
        execAll s [(.genks m, []), (.genks n, [])] = .next u ∧ u.engine = t.engine ∧
        u.delivered = s.delivered ++ [⟨.ok, u1⟩, ⟨.ok, u2⟩] ∧
        t.delivered = s.delivered ++ [⟨.ok, u1 ++ u2⟩]) ∧
    (∀ (s : State) (n : Nat), s.engine.kv = true →
      ∃ t u zs, exec (.genks n) s = .next t ∧ execAll s (List.replicate n (.step, [])) = .next u ∧
        u.engine = t.engine ∧ t.delivered = s.delivered ++ [⟨.ok, zs⟩] ∧
        u.delivered = s.delivered ++ zs.map fun z => ⟨.ok, [z]⟩)

/-- R150, R153, R131: no step leaves the registers and gives no bit; `n` steps give exactly `n` bits; bit `i` is
the output of the step that follows the first `i`, and the registers are those of that many single steps. -/
def Obligations.KeystreamBitsComeInOrder : Prop :=
  ∀ (r : Regs) (n : Nat),
    genF r 0 = (r, []) ∧ (genF r n).2.length = n ∧ (genF r (n + 1)).1 = (stepF (genF r n).1).1 ∧
      (∀ i, i < n → (genF r n).2[i]? = some (stepF (genF r i).1).2)

/-- R155: ENCRYPT with a key and its payload restarts from the initial vectors, leaves the registers advanced by
`len` steps and responds OK with the transformed payload; nothing else changes. -/
def Obligations.EncryptTransformsThePayload : Prop :=
  ∀ (len : Nat) (s : State), s.engine.kv = true → len ≤ s.din.length →
    exec (.encrypt len) s = .next
      { s with
        engine := ⟨s.engine.kv, s.engine.iv, (genF s.engine.iv len).1⟩
        din := []
        delivered := s.delivered ++ [⟨.ok, (cryptF s.engine.iv (s.din.take len)).2⟩] }

/-- R156: DECRYPT with a key does the same, and differs from ENCRYPT in its opcode and in nothing else. -/
def Obligations.DecryptTransformsThePayload : Prop :=
  (∀ (len : Nat) (s : State), s.engine.kv = true → len ≤ s.din.length →
      exec (.decrypt len) s = .next
        { s with
          engine := ⟨s.engine.kv, s.engine.iv, (genF s.engine.iv len).1⟩
          din := []
          delivered := s.delivered ++ [⟨.ok, (cryptF s.engine.iv (s.din.take len)).2⟩] }) ∧
    (∀ (len : Nat) (s : State), exec (.decrypt len) s = exec (.encrypt len) s)

/-- R154: the result has the length of the input, its bit `i` is input bit `i` exclusive-or keystream bit `i` from
the initial vectors, and it depends on no other bit of the input. -/
def Obligations.EachOutputBitIsInputXorKeystream : Prop :=
  ∀ (iv : Regs) (p : Bits),
    (cryptF iv p).1 = (genF iv p.length).1 ∧ (cryptF iv p).2.length = p.length ∧
      (∀ (i : Nat) (x : Bit), p[i]? = some x → ∃ z, (genF iv p.length).2[i]? = some z ∧ (cryptF iv p).2[i]? = some (x ^^ z)) ∧
      (∀ (q : Bits) (i : Nat), i < p.length → p[i]? = q[i]? → (cryptF iv p).2[i]? = (cryptF iv q).2[i]?)

/-- R157 (e): `n` zeros come back as the first `n` keystream bits, `n` ones as their complements. -/
def Obligations.ConstantPayloadsShowTheKeystream : Prop :=
  ∀ (iv : Regs) (n : Nat),
    (cryptF iv (List.replicate n false)).2 = (genF iv n).2 ∧
      (cryptF iv (List.replicate n true)).2 = (genF iv n).2.map (! ·)

/-- R158: with no LOADKEY in between, DECRYPT of what ENCRYPT of `p` responded, from whatever later state with the
same initial vectors, responds `p`; likewise ENCRYPT twice.  `cs` are the commands in between. -/
def Obligations.DecryptUndoesEncrypt : Prop :=
  ∀ (s t : State) (p c : Bits) (cs : List (Instr × Bits)), s.engine.kv = true →
    exec (.encrypt p.length) { s with din := p } = .next t → t.delivered = s.delivered ++ [⟨.ok, c⟩] →
    ∀ u : State, (∀ x ∈ cs, x.1 ≠ .loadkey 64) → execAll t cs = .next u →
      c.length = p.length ∧
      (∃ v, exec (.decrypt c.length) { u with din := c } = .next v ∧
        v.delivered = u.delivered ++ [⟨.ok, p⟩]) ∧
      (∃ v, exec (.encrypt c.length) { u with din := c } = .next v ∧
        v.delivered = u.delivered ++ [⟨.ok, p⟩])

/-- R157 (c): ENCRYPT and DECRYPT do not depend on the registers before them. -/
def Obligations.TransformIgnoresEarlierProgress : Prop :=
  ∀ (s : State) (len : Nat) (cur : Regs), s.engine.kv = true →
    exec (.encrypt len) (s.setEngine (s.engine.setRegs cur)) = exec (.encrypt len) s ∧
      exec (.decrypt len) (s.setEngine (s.engine.setRegs cur)) = exec (.decrypt len) s

/-- R157 (a), R151, R160: an empty ENCRYPT or DECRYPT is RESET; STEP is `GENKS 1`; `GENKS 0` responds OK with no
bits and changes no engine state. -/
def Obligations.CommandsThatAgree : Prop :=
  ∀ s : State,
    exec (.encrypt 0) s = exec .reset s ∧ exec (.decrypt 0) s = exec .reset s ∧
      exec .step s = exec (.genks 1) s ∧
      (s.engine.kv = true →
        exec (.genks 0) s = .next { s with din := [], delivered := s.delivered ++ [⟨.ok, []⟩] })

/-- R160, R159: ENCRYPT of `p` leaves the engine of RESET and then GENKS of its length, and responds with the
exclusive-or of `p` and that keystream. -/
def Obligations.EncryptIsResetGenksAndXor : Prop :=
  ∀ (s : State) (p : Bits), s.engine.kv = true →
    ∃ t u zs, exec (.encrypt p.length) { s with din := p } = .next t ∧
      execAll s [(.reset, []), (.genks p.length, [])] = .next u ∧ t.engine = u.engine ∧
      u.delivered = s.delivered ++ [⟨.ok, []⟩, ⟨.ok, zs⟩] ∧
      t.delivered = s.delivered ++ [⟨.ok, xorBits p zs⟩]

/-- R157 (b), R208: after ENCRYPT of `n` bits a GENKS continues the key's keystream at position `n`. -/
def Obligations.KeystreamContinuesAfterEncrypt : Prop :=
  ∀ (s t : State) (n m : Nat), s.engine.kv = true → n ≤ s.din.length → exec (.encrypt n) s = .next t →
    ∃ u, exec (.genks m) t = .next u ∧ u.engine.cur = (genF s.engine.iv (n + m)).1 ∧
      u.delivered = t.delivered ++ [⟨.ok, (genF s.engine.iv (n + m)).2.drop n⟩]

/-! ## 10_state.md: who writes what, and the reachable states -/

/-- R24 to R26: the frame of every command.  The rest of the input and the model's counter stand, no payload bit
is left; no command but a LOADKEY of 64 bits writes the initial vectors or KV; only a command that responds OK
writes the registers. -/
def Obligations.EveryCommandKeepsItsFrame : Prop :=
  ∀ (i : Instr) (s t : State), exec i s = .next t →
    t.input = s.input ∧ t.draws = s.draws ∧ t.din = [] ∧
      (i ≠ .loadkey 64 → t.engine.iv = s.engine.iv ∧ t.engine.kv = s.engine.kv) ∧
      (i = .loadkey 64 → t.engine.kv = true ∧ t.engine.cur = t.engine.iv) ∧
      (∀ r, t.delivered = s.delivered ++ [r] → r.status ≠ .ok → t.engine = s.engine)

/-- R30: with KV = 1 the registers are the initial vectors advanced by some number of steps.  It holds after
reset. -/
def Obligations.KeystreamInvariantHoldsAtReset : Prop := State.reset.engine.Inv

/-- R30: every step, of a command, a failed command, a hardware reset or nothing, keeps that. -/
def Obligations.EveryStepKeepsTheKeystreamInvariant : Prop :=
  ∀ s t : State, s.engine.Inv → step s = .next t → t.engine.Inv

/-- R30, R203: every 64-bit key at every keystream position is reached from reset, by one LOADKEY and that many
STEPs. -/
def Obligations.EveryKeystreamPositionIsReached : Prop :=
  ∀ (k : Bits) (n : Nat), k.length = 64 →
    ∃ t, Host.Core.run Sys2Proof.core (n + 1)
        { State.reset with
          input := .packet ⟨encode (.loadkey 64), k⟩ ::
            List.replicate n (.packet ⟨encode .step, []⟩) } = .next t ∧
      t.engine = ⟨true, split k, (genF (split k) n).1⟩ ∧ t.input = []

/-- R34, R26 (93 U3): while KV = 0 nothing depends on the contents of the six registers: two states that differ
in them only answer every step alike, and a successful LOADKEY makes them equal. -/
def Obligations.RegistersAreNeverReadWithoutKey : Prop :=
  ∀ s t : State, s.AgreeButRegs t → s.engine.kv = false →
    AlikeButRegs (step s) (step t) ∧
      (∀ u, exec (.loadkey 64) s = .next u → exec (.loadkey 64) t = .next u)

/-- R205, R182: a host that keeps the payload duty never sees the machine stop, however many steps it runs. -/
def Obligations.DutifulHostNeverStopsTheEngine : Prop :=
  ∀ (n : Nat) (s : State), s.HostKeepsDuty → ∃ t, Host.Core.run Sys2Proof.core n s = .next t

/-! ## The notation and the front end -/

/-- R83: the GENKS commands of `GENKSL n` each fit LEN, their counts add up to `n`, and run one after another
they leave the engine of `n` steps and deliver, concatenated, its keystream. -/
def Obligations.GenkslIsTheKeystreamOfItsCount : Prop :=
  ∀ (n : Nat) (s : State), s.engine.kv = true →
    (genkslCounts n).sum = n ∧ (∀ k ∈ genkslCounts n, WellFormed (.genks k) = true) ∧
      ∃ u rs, execAll s ((genkslCounts n).map fun k => (.genks k, [])) = .next u ∧
        u.engine = ⟨s.engine.kv, s.engine.iv, (genF s.engine.cur n).1⟩ ∧
        u.delivered = s.delivered ++ rs ∧ (∀ r ∈ rs, r.status = .ok) ∧
        (rs.map Response.bits).flatten = (genF s.engine.cur n).2

/-- R173, R178: the front end tests a key's length first, then the characters of a key or a message, and presents
a packet only for a string of '0' and '1', whose bits are its payload. -/
def Obligations.FrontEndRejectsBeforeTheEngine : Prop :=
  (∀ key : List Char, key.length ≠ 64 → frontEnd (.construct key) = .rejects .invalidKeyLength) ∧
    (∀ key : List Char, key.length = 64 → (∃ c ∈ key, c ≠ '0' ∧ c ≠ '1') →
      frontEnd (.construct key) = .rejects .invalidInputFormat) ∧
    (∀ text : List Char, (∃ c ∈ text, c ≠ '0' ∧ c ≠ '1') →
      frontEnd (.encrypt text) = .rejects .invalidInputFormat ∧
        frontEnd (.decrypt text) = .rejects .invalidInputFormat) ∧
    (∀ k : Bits, k.length = 64 →
      frontEnd (.construct (k.map fun b => if b then '1' else '0')) =
        .presents [⟨encode (.loadkey 64), k⟩]) ∧
    (∀ p : Bits, p.length ≤ 16777215 →
      frontEnd (.encrypt (p.map fun b => if b then '1' else '0')) =
        .presents [⟨encode (.encrypt p.length), p⟩] ∧
      frontEnd (.decrypt (p.map fun b => if b then '1' else '0')) =
        .presents [⟨encode (.decrypt p.length), p⟩])

/-! ## The ports -/

/-- R86: the ports carry the atomic commands and add no meaning.  From an idle engine, whatever pauses the host
makes between payload bits, the header and enough edges leave the engine of the one step that takes the packet,
deliver that step's response bits in order and its status once, and the engine is idle again.  That the status is
there as early as the last response bit is the model's choice (log 10). -/
def Obligations.PortsCarryTheAtomicCommands : Prop :=
  ∀ (p : PortState) (h : Header) (dins : List (Option Bit)) (s : State) (rest : List Input),
    p.phase = .idle → s.engine = p.engine → s.input = .packet ⟨h, presentedBits dins⟩ :: rest →
    headerPayloadLen h ≤ (presentedBits dins).length → headerBeats p.engine.kv h ≤ dins.length →
      ∃ t r, step s = .next t ∧ t.delivered = s.delivered ++ [r] ∧
        (runEdges p (drive h dins)).phase = .idle ∧ (runEdges p (drive h dins)).engine = t.engine ∧
        bitsOf (observe p (drive h dins)) = r.bits ∧ statusesOf (observe p (drive h dins)) = [r.status]

/-- R205: while payload bits are missing the port engine waits: no status is delivered, the command stays in
progress and the engine asks for the next bit. -/
def Obligations.PortEngineWaitsForMissingBits : Prop :=
  ∀ (p : PortState) (h : Header) (dins : List (Option Bit)), p.phase = .idle →
    (presentedBits dins).length < headerPayloadLen h →
      statusesOf (observe p (drive h dins)) = [] ∧
        (runEdges p (drive h dins)).phase.cmdReady = false ∧
        (runEdges p (drive h dins)).phase.dinReady = true

/-- R213, R214: with no late payload bit the response comes exactly `headerBeats` edges after the one that takes
the header, and not before.  That this cycle is also the cycle of the last response bit, for a command that delivers
bits, is the model's choice (log 10, DEDUCED). -/
def Obligations.ResponseComesAfterTheCountedBeats : Prop :=
  ∀ (p : PortState) (h : Header) (dins : List (Option Bit)), p.phase = .idle →
    dins.length = headerBeats p.engine.kv h → (∀ d ∈ dins, d.isSome = true) →
      statusesOf (observe p (drive h dins).dropLast) = [] ∧
        (statusesOf (observe p (drive h dins))).length = 1

/-- R200, R201: `RST_N = 0` at any edge, in whatever command, leaves KV = 0, no command in progress and nothing
valid; after release the engine is ready for a header.  That CMD_READY and DIN_READY are 0 while `RST_N` is 0 is the
model's choice (log 9), and so is that CMD_READY is 1 again in the very cycle of the release (log 17). -/
def Obligations.PortResetOverridesEverything : Prop :=
  ∀ (p : PortState) (i : PortsIn), i.rstN = false →
    (edge p i).engine.kv = false ∧ (edge p i).phase = .idle ∧ ports true (edge p i) = ⟨true, false, none, none⟩ ∧
      ports false (edge p i) = ⟨false, false, none, none⟩

/-- R209: while a command is in progress a presented header is not taken. -/
def Obligations.BusyEngineTakesNoHeader : Prop :=
  ∀ (p : PortState) (i : PortsIn) (c : Option Header), p.phase ≠ .idle →
    edge p { i with cmd := c } = edge p i ∧ (ports true p).cmdReady = false
end

