-- ==== Sys2Proof/Laws/Decode.lean ====
section
/-! SUPPORT. The header fields as integers. -/

namespace Sys2Proof

theorem opField_toNat (h : Header) : (opField h).toNat = h.toNat / 2 ^ 29 := by
  have := h.isLt
  simp [opField, BitVec.extractLsb'_toNat, Nat.shiftRight_eq_div_pow]
  omega

theorem rsvField_eq_zero_iff (h : Header) : rsvField h = 0#5 ↔ h.toNat / 2 ^ 24 % 32 = 0 := by
  rw [← BitVec.toNat_inj]
  simp [rsvField, BitVec.extractLsb'_toNat, Nat.shiftRight_eq_div_pow]

theorem lenField_eq_mod (h : Header) : lenField h = h.toNat % 2 ^ 24 := by
  simp [lenField, BitVec.extractLsb'_toNat]

end Sys2Proof
end

