-- ==== Sys2Proof/Laws/Operands.lean ====
section
/-! SUPPORT. What the operand forms and the step functions do, element by element. -/

namespace Sys2Proof.Machine

@[simp] theorem ofBits_nil (n : Nat) : ofBits n [] = 0#n := rfl

/-- Element `i` of the register is element `i` of the sequence. -/
theorem getLsbD_ofBits (n : Nat) (v : Bits) (i : Nat) :
    (ofBits n v).getLsbD i = (decide (i < n) && v.getD i false) := by
  induction v generalizing i with
  | nil => simp
  | cons x xs ih =>
    rw [ofBits, BitVec.getLsbD_shiftConcat]
    cases i with
    | zero => simp
    | succ i =>
      by_cases h : i + 1 < n
      · simpa [h, Nat.lt_of_succ_lt h] using ih i
      · simp [h]

/-- The same below the length, in the element form that `simp` prefers. -/
theorem getElem_ofBits (n : Nat) (v : Bits) (i : Nat) (h : i < n) : (ofBits n v)[i] = v.getD i false := by
  rw [← BitVec.getLsbD_eq_getElem, getLsbD_ofBits]
  simp [h]

@[simp] theorem length_toBits {n : Nat} (v : BitVec n) : (toBits v).length = n := by simp [toBits]

@[simp] theorem getElem_toBits {n : Nat} (v : BitVec n) (i : Nat) (h : i < (toBits v).length) :
    (toBits v)[i] = v.getLsbD i := by simp [toBits]

theorem length_slice (k : Bits) (lo hi : Nat) : (slice k lo hi).length = min (hi - lo) (k.length - lo) := by
  simp [slice]

theorem getD_slice (k : Bits) (lo hi i : Nat) (h : i < hi - lo) :
    (slice k lo hi).getD i false = k.getD (lo + i) false := by
  simp [slice, List.getD, h]

/-- The shift puts the bit at the front and moves every other bit to the next higher index (R124). -/
theorem getLsbD_shift {n : Nat} (v : BitVec n) (f : Bit) (i : Nat) :
    (shift v f).getLsbD i = (decide (i < n) && if i = 0 then f else v.getLsbD (i - 1)) :=
  BitVec.getLsbD_shiftConcat v f i

theorem getElem_shift {n : Nat} (v : BitVec n) (f : Bit) (i : Nat) (h : i < n) :
    (shift v f)[i] = if i = 0 then f else v[i - 1] := BitVec.getElem_shiftConcat h

@[simp] theorem genF_zero (r : Regs) : genF r 0 = (r, []) := rfl

theorem genF_succ (r : Regs) (n : Nat) :
    genF r (n + 1) = ((genF (stepF r).1 n).1, (stepF r).2 :: (genF (stepF r).1 n).2) := rfl

@[simp] theorem stepF_fst (r : Regs) : (stepF r).1 = clockRegs r := rfl
@[simp] theorem stepF_snd (r : Regs) : (stepF r).2 = outBit (clockRegs r) := rfl
@[simp] theorem clockRegs_a (r : Regs) : (clockRegs r).a = nextA r := rfl
@[simp] theorem clockRegs_b (r : Regs) : (clockRegs r).b = nextB r := rfl
@[simp] theorem clockRegs_c (r : Regs) : (clockRegs r).c = nextC r := rfl

end Sys2Proof.Machine
end

