-- ==== Sys2Proof/Laws/State.lean ====
section
/-! SUPPORT. One lemma per field per update of the state, so that no proof unfolds a record update. -/

namespace Sys2Proof.Machine

section EngineUpdates
variable (e : Engine) (k r : Regs) (d : Nat)

@[simp] theorem Engine.keyValid_eq : e.keyValid = e.kv := rfl
@[simp] theorem Engine.setKeyValid_kv : e.setKeyValid.kv = true := rfl
@[simp] theorem Engine.setKeyValid_iv : e.setKeyValid.iv = e.iv := rfl
@[simp] theorem Engine.setKeyValid_cur : e.setKeyValid.cur = e.cur := rfl
@[simp] theorem Engine.clearKeyValid_kv : e.clearKeyValid.kv = false := rfl
@[simp] theorem Engine.clearKeyValid_iv : e.clearKeyValid.iv = e.iv := rfl
@[simp] theorem Engine.clearKeyValid_cur : e.clearKeyValid.cur = e.cur := rfl
@[simp] theorem Engine.loadKey_kv : (e.loadKey k).kv = true := rfl
@[simp] theorem Engine.loadKey_iv : (e.loadKey k).iv = k := rfl
@[simp] theorem Engine.loadKey_cur : (e.loadKey k).cur = k := rfl
@[simp] theorem Engine.restart_kv : e.restart.kv = e.kv := rfl
@[simp] theorem Engine.restart_iv : e.restart.iv = e.iv := rfl
@[simp] theorem Engine.restart_cur : e.restart.cur = e.iv := rfl
@[simp] theorem Engine.setRegs_kv : (e.setRegs r).kv = e.kv := rfl
@[simp] theorem Engine.setRegs_iv : (e.setRegs r).iv = e.iv := rfl
@[simp] theorem Engine.setRegs_cur : (e.setRegs r).cur = r := rfl
@[simp] theorem Engine.hardwareReset_kv : (e.hardwareReset d).kv = false := rfl
@[simp] theorem Engine.hardwareReset_iv : (e.hardwareReset d).iv = freeRegs d := rfl
@[simp] theorem Engine.hardwareReset_cur : (e.hardwareReset d).cur = freeRegs (d + 1) := rfl

end EngineUpdates

section StateUpdates
variable (s : State) (e : Engine) (st : Status) (p : Bits) (n : Nat)

@[simp] theorem State.setEngine_engine : (s.setEngine e).engine = e := rfl
@[simp] theorem State.setEngine_input : (s.setEngine e).input = s.input := rfl
@[simp] theorem State.setEngine_din : (s.setEngine e).din = s.din := rfl
@[simp] theorem State.setEngine_delivered : (s.setEngine e).delivered = s.delivered := rfl
@[simp] theorem State.setEngine_draws : (s.setEngine e).draws = s.draws := rfl

@[simp] theorem State.respond_engine : (s.respond st p).engine = s.engine := rfl
@[simp] theorem State.respond_input : (s.respond st p).input = s.input := rfl
@[simp] theorem State.respond_din : (s.respond st p).din = [] := rfl
@[simp] theorem State.respond_delivered : (s.respond st p).delivered = s.delivered ++ [⟨st, p⟩] := rfl
@[simp] theorem State.respond_draws : (s.respond st p).draws = s.draws := rfl

@[simp] theorem State.raiseError_engine : (s.raiseError st).engine = s.engine := rfl
@[simp] theorem State.raiseError_input : (s.raiseError st).input = s.input := rfl
@[simp] theorem State.raiseError_din : (s.raiseError st).din = [] := rfl
@[simp] theorem State.raiseError_delivered : (s.raiseError st).delivered = s.delivered ++ [⟨st, []⟩] := rfl
@[simp] theorem State.raiseError_draws : (s.raiseError st).draws = s.draws := rfl

@[simp] theorem State.transform_engine :
    (s.transform p).engine = s.engine.setRegs (cryptF s.engine.iv p).1 := rfl
@[simp] theorem State.transform_input : (s.transform p).input = s.input := rfl
@[simp] theorem State.transform_din : (s.transform p).din = [] := rfl
@[simp] theorem State.transform_delivered :
    (s.transform p).delivered = s.delivered ++ [⟨.ok, (cryptF s.engine.iv p).2⟩] := rfl
@[simp] theorem State.transform_draws : (s.transform p).draws = s.draws := rfl

@[simp] theorem State.generate_engine :
    (s.generate n).engine = s.engine.setRegs (genF s.engine.cur n).1 := rfl
@[simp] theorem State.generate_input : (s.generate n).input = s.input := rfl
@[simp] theorem State.generate_din : (s.generate n).din = [] := rfl
@[simp] theorem State.generate_delivered :
    (s.generate n).delivered = s.delivered ++ [⟨.ok, (genF s.engine.cur n).2⟩] := rfl
@[simp] theorem State.generate_draws : (s.generate n).draws = s.draws := rfl

@[simp] theorem State.hardwareReset_engine :
    s.hardwareReset.engine = s.engine.hardwareReset s.draws := rfl
@[simp] theorem State.hardwareReset_input : s.hardwareReset.input = s.input := rfl
@[simp] theorem State.hardwareReset_din : s.hardwareReset.din = [] := rfl
@[simp] theorem State.hardwareReset_delivered : s.hardwareReset.delivered = s.delivered := rfl
@[simp] theorem State.hardwareReset_draws : s.hardwareReset.draws = s.draws + 2 := rfl

@[simp] theorem State.present_engine (q : Packet) : (s.present q).engine = s.engine := rfl
@[simp] theorem State.present_input (q : Packet) : (s.present q).input = .packet q :: s.input := rfl
@[simp] theorem State.present_din (q : Packet) : (s.present q).din = s.din := rfl
@[simp] theorem State.present_delivered (q : Packet) : (s.present q).delivered = s.delivered := rfl
@[simp] theorem State.present_draws (q : Packet) : (s.present q).draws = s.draws := rfl

end StateUpdates

end Sys2Proof.Machine
end

