-- ==== Sys2Proof/Laws/Ops.lean ====
section
/-! SUPPORT. What each shared operation and each meaning can do, said once: the cases in which it answers a next state. -/

namespace Sys2Proof.Machine

theorem takePayload_of_le {n : Nat} {s : State} (h : n ≤ s.din.length) :
    takePayload n s = some (s.din.take n) := if_pos h

theorem takePayload_of_lt {n : Nat} {s : State} (h : s.din.length < n) : takePayload n s = none :=
  if_neg (Nat.not_le.mpr h)

/-- With its payload present a command runs on the first `n` bits. -/
theorem withPayload_of_le {n : Nat} {s : State} {k : Bits → Result} (h : n ≤ s.din.length) :
    withPayload n s k = k (s.din.take n) := by rw [withPayload, takePayload_of_le h]

/-- Without it the engine waits. -/
theorem withPayload_of_lt {n : Nat} {s : State} {k : Bits → Result} (h : s.din.length < n) :
    withPayload n s k = .fault .payloadStarved := by rw [withPayload, takePayload_of_lt h]

/-- Everything `withPayload` can do. -/
theorem withPayload_cases (n : Nat) (s : State) (k : Bits → Result) :
    (n ≤ s.din.length ∧ withPayload n s k = k (s.din.take n)) ∨
      (s.din.length < n ∧ withPayload n s k = .fault .payloadStarved) := by
  rcases Nat.lt_or_ge s.din.length n with h | h
  · exact .inr ⟨h, withPayload_of_lt h⟩
  · exact .inl ⟨h, withPayload_of_le h⟩

theorem withKey_of_key {s k : State} (h : s.engine.kv = true) : withKey s k = .next k := if_pos h

theorem withKey_of_noKey {s k : State} (h : s.engine.kv = false) :
    withKey s k = .next (s.raiseError .noKey) := if_neg (by simp [h])

/-- `withKey` always goes on: to the given state with a key, to the error response without. -/
theorem withKey_cases (s k : State) :
    (s.engine.kv = true ∧ withKey s k = .next k) ∨
      (s.engine.kv = false ∧ withKey s k = .next (s.raiseError .noKey)) := by
  cases h : s.engine.kv
  · exact .inr ⟨rfl, withKey_of_noKey h⟩
  · exact .inl ⟨rfl, withKey_of_key h⟩

/-- Everything a step of the machine can be. -/
theorem acceptNext_cases (s : State) :
    (s.input = [] ∧ acceptNext s = .next s) ∨
      (∃ p rest, s.input = .packet p :: rest ∧ acceptNext s = acceptPacket p { s with input := rest }) ∨
      (∃ rest, s.input = .hardwareReset :: rest ∧
        acceptNext s = .next (State.hardwareReset { s with input := rest })) := by
  cases h : s.input with
  | nil => exact .inl ⟨rfl, by simp [acceptNext, h]⟩
  | cons i rest =>
    cases i with
    | packet p => exact .inr (.inl ⟨p, rest, rfl, by simp [acceptNext, acceptInput, h]⟩)
    | hardwareReset => exact .inr (.inr ⟨rest, rfl, by simp [acceptNext, acceptInput, h]⟩)

/-- Accepting a packet is the execution of its command, or the response IllegalCommand. -/
theorem acceptPacket_cases (p : Packet) (s : State) :
    (∃ i, decode p.header = .command i ∧ acceptPacket p s = exec i { s with din := p.payload }) ∨
      (∃ w, decode p.header = .illegal w ∧ acceptPacket p s = .next (s.raiseError .illegalCommand)) := by
  cases h : decode p.header with
  | command i => exact .inl ⟨i, rfl, by simp [acceptPacket, h]⟩
  | illegal w => exact .inr ⟨w, rfl, by simp [acceptPacket, h]⟩

end Sys2Proof.Machine
end

