-- ==== Sys2Proof/Laws/Exec.lean ====
section
/-! SUPPORT. What the execution of a command can be: waiting for its payload, or a response that leaves an engine. -/

namespace Sys2Proof.Machine

/-- Without its payload a command waits. -/
theorem exec_starved {i : Instr} {s : State} (h : s.din.length < payloadLen i) :
    exec i s = .fault .payloadStarved := by
  cases i <;> simp [payloadLen, format, lenOperand] at h <;> exact withPayload_of_lt h

/-- With its payload a command responds with the status of R178; an error leaves the engine and has no bits, and
no command but a LOADKEY of 64 bits writes KV or the initial vectors. -/
theorem exec_answers (i : Instr) (s : State) (h : payloadLen i ≤ s.din.length) :
    ∃ e bits, exec i s = .next ((s.setEngine e).respond (statusOf s.engine.kv i) bits) ∧
      (statusOf s.engine.kv i ≠ .ok → e = s.engine ∧ bits = []) ∧
      (i ≠ .loadkey 64 → e.kv = s.engine.kv ∧ e.iv = s.engine.iv) := by
  have key : s.engine.kv = true ∨ s.engine.kv = false := by cases s.engine.kv <;> simp
  cases i with
  | loadkey len =>
    have h : len ≤ s.din.length := h
    by_cases hl : len = 64
    · subst hl
      exact ⟨s.engine.loadKey (split (s.din.take 64)), [],
        by simp [exec, execLoadkey, withPayload_of_le h, Config.keyLen, statusOf],
        by simp [statusOf, Config.keyLen], by simp⟩
    · exact ⟨s.engine, [],
        by simp [exec, execLoadkey, withPayload_of_le h, Config.keyLen, statusOf, hl]; rfl, by simp, by simp⟩
  | reset =>
    rcases key with hk | hk
    · exact ⟨s.engine.restart, [], by simp [exec, execReset, withKey_of_key hk, statusOf, hk],
        by simp [statusOf, hk], by simp⟩
    · exact ⟨s.engine, [], by simp [exec, execReset, withKey_of_noKey hk, statusOf, hk]; rfl, by simp, by simp⟩
  | step =>
    rcases key with hk | hk
    · exact ⟨_, _, by simp only [exec, execStep, withKey_of_key hk, statusOf, hk]; rfl,
        by simp [statusOf, hk], by simp⟩
    · exact ⟨s.engine, [], by simp [exec, execStep, withKey_of_noKey hk, statusOf, hk]; rfl, by simp, by simp⟩
  | genks n =>
    rcases key with hk | hk
    · exact ⟨_, _, by simp only [exec, execGenks, withKey_of_key hk, statusOf, hk]; rfl,
        by simp [statusOf, hk], by simp⟩
    · exact ⟨s.engine, [], by simp [exec, execGenks, withKey_of_noKey hk, statusOf, hk]; rfl, by simp, by simp⟩
  | encrypt n =>
    have h : n ≤ s.din.length := h
    rcases key with hk | hk
    · exact ⟨_, _, by simp only [exec, execEncrypt, withPayload_of_le h, withKey_of_key hk, statusOf, hk]; rfl,
        by simp [statusOf, hk], by simp⟩
    · exact ⟨s.engine, [],
        by simp [exec, execEncrypt, withPayload_of_le h, withKey_of_noKey hk, statusOf, hk]; rfl, by simp, by simp⟩
  | decrypt n =>
    have h : n ≤ s.din.length := h
    rcases key with hk | hk
    · exact ⟨_, _, by simp only [exec, execDecrypt, withPayload_of_le h, withKey_of_key hk, statusOf, hk]; rfl,
        by simp [statusOf, hk], by simp⟩
    · exact ⟨s.engine, [],
        by simp [exec, execDecrypt, withPayload_of_le h, withKey_of_noKey hk, statusOf, hk]; rfl, by simp, by simp⟩

/-- Everything a next state of a command can be. -/
theorem exec_next_cases {i : Instr} {s t : State} (h : exec i s = .next t) :
    payloadLen i ≤ s.din.length ∧
      ∃ e bits, t = (s.setEngine e).respond (statusOf s.engine.kv i) bits ∧
        (statusOf s.engine.kv i ≠ .ok → e = s.engine ∧ bits = []) ∧
        (i ≠ .loadkey 64 → e.kv = s.engine.kv ∧ e.iv = s.engine.iv) := by
  rcases Nat.lt_or_ge s.din.length (payloadLen i) with hl | hl
  · rw [exec_starved hl] at h
    cases h
  · obtain ⟨e, bits, h1, h2⟩ := exec_answers i s hl
    rw [h1] at h
    cases h
    exact ⟨hl, e, bits, rfl, h2⟩

end Sys2Proof.Machine
end

