-- ==== Sys2Proof/Laws/PerInstr.lean ====
section
/-! SUPPORT. Laws stated per command: the fields of its header. -/

/-- The header of a command holds its opcode, a zero reserved field and, where the count fits, its count. -/
def Sys2Proof.Laws.HeaderFields.Statement (i : Sys2Proof.Instr) : Prop :=
  Sys2Proof.opField (Sys2Proof.encode i) = Sys2Proof.opcode i ∧
    Sys2Proof.rsvField (Sys2Proof.encode i) = 0#5 ∧
    (Sys2Proof.WellFormed i = true → Sys2Proof.lenField (Sys2Proof.encode i) = Sys2Proof.lenOperand i)

namespace Sys2Proof.Laws

theorem opField_append (op : BitVec 3) (n : BitVec 24) : opField (op ++ 0#5 ++ n) = op := by
  unfold opField
  ext i hi
  simp only [BitVec.getElem_extractLsb', BitVec.getLsbD_append]
  have h1 : ¬ 29 + i < 24 := by omega
  have h2 : ¬ 29 + i - 24 < 5 := by omega
  have h3 : 29 + i - 24 - 5 = i := by omega
  simp [h1, h2, h3, BitVec.getElem_eq_testBit_toNat, BitVec.getLsbD]

theorem rsvField_append (op : BitVec 3) (n : BitVec 24) : rsvField (op ++ 0#5 ++ n) = 0#5 := by
  unfold rsvField
  ext i hi
  simp only [BitVec.getElem_extractLsb', BitVec.getLsbD_append]
  have h1 : ¬ 24 + i < 24 := by omega
  simp [h1]
  omega

theorem lenField_append (op : BitVec 3) (n : BitVec 24) : lenField (op ++ 0#5 ++ n) = n.toNat := by
  unfold lenField
  congr 1
  ext i hi
  simp only [BitVec.getElem_extractLsb', BitVec.getLsbD_append]
  simp [hi, BitVec.getElem_eq_testBit_toNat, BitVec.getLsbD]

theorem headerFields_of (i : Instr) (h : WellFormed i = true → lenOperand i ≤ Config.maxLen) :
    HeaderFields.Statement i := by
  refine ⟨opField_append _ _, rsvField_append _ _, fun hw => ?_⟩
  rw [encode, lenField_append, BitVec.toNat_ofNat]
  exact Nat.mod_eq_of_lt (Nat.lt_of_le_of_lt (h hw) (by decide))

theorem HeaderFields.loadkey (len : Nat) : HeaderFields.Statement (.loadkey len) :=
  headerFields_of _ of_decide_eq_true
theorem HeaderFields.reset : HeaderFields.Statement .reset := headerFields_of _ fun _ => Nat.zero_le _
theorem HeaderFields.step : HeaderFields.Statement .step := headerFields_of _ fun _ => Nat.zero_le _
theorem HeaderFields.genks (n : Nat) : HeaderFields.Statement (.genks n) :=
  headerFields_of _ of_decide_eq_true
theorem HeaderFields.encrypt (len : Nat) : HeaderFields.Statement (.encrypt len) :=
  headerFields_of _ of_decide_eq_true
theorem HeaderFields.decrypt (len : Nat) : HeaderFields.Statement (.decrypt len) :=
  headerFields_of _ of_decide_eq_true

end Sys2Proof.Laws
end

