-- ==== Sys2Proof/Laws/Run.lean ====
section
/-! SUPPORT. Runs of the machine, one step at a time. -/

namespace Sys2Proof.Machine

theorem core_run_zero (s : State) : Host.Core.run Sys2Proof.core 0 s = .next s := rfl

theorem run_succ_of_next (M : Host.Core) {s t : M.State} (n : Nat) (h : M.step s = .next t) :
    M.run (n + 1) s = M.run n t := by simp [Host.Core.run, h]

/-- A run whose first step goes on is the run from the state it goes to. -/
theorem core_run_succ {s t : State} (n : Nat) (h : step s = .next t) :
    Host.Core.run Sys2Proof.core (n + 1) s = Host.Core.run Sys2Proof.core n t :=
  run_succ_of_next Sys2Proof.core n h

/-- The step of the machine takes the presented packet. -/
theorem step_packet {s : State} {p : Packet} {rest : List Input} (h : s.input = .packet p :: rest) :
    step s = acceptPacket p { s with input := rest } := by simp [step, acceptNext, acceptInput, h]

/-- The step of the machine takes the hardware reset. -/
theorem step_hardwareReset {s : State} {rest : List Input} (h : s.input = .hardwareReset :: rest) :
    step s = .next (State.hardwareReset { s with input := rest }) := by
  simp [step, acceptNext, acceptInput, h]

end Sys2Proof.Machine
end

