-- ==== Sys2Proof/Laws/Transport.lean ====
section
/-! SUPPORT. One lemma per field per update of the port state, and what one edge can be. -/

namespace Sys2Proof.Machine

section PortUpdates
variable (p : PortState) (e : Engine) (ph : Phase) (st : Status) (x : Bit) (next : Nat → Phase) (n : Nat)

@[simp] theorem PortState.quiet_engine : (p.quiet e ph).engine = e := rfl
@[simp] theorem PortState.quiet_phase : (p.quiet e ph).phase = ph := rfl
@[simp] theorem PortState.quiet_held : (p.quiet e ph).held = none := rfl
@[simp] theorem PortState.quiet_rsp : (p.quiet e ph).rsp = none := rfl
@[simp] theorem PortState.quiet_draws : (p.quiet e ph).draws = p.draws := rfl

@[simp] theorem PortState.emit_engine : (p.emit e x ph).engine = e := rfl
@[simp] theorem PortState.emit_phase : (p.emit e x ph).phase = ph := rfl
@[simp] theorem PortState.emit_held : (p.emit e x ph).held = some x := rfl
@[simp] theorem PortState.emit_rsp : (p.emit e x ph).rsp = if ph.cmdReady then some .ok else none := rfl
@[simp] theorem PortState.emit_draws : (p.emit e x ph).draws = p.draws := rfl

@[simp] theorem PortState.finish_engine : (p.finish e st).engine = e := rfl
@[simp] theorem PortState.finish_phase : (p.finish e st).phase = .idle := rfl
@[simp] theorem PortState.finish_held : (p.finish e st).held = none := rfl
@[simp] theorem PortState.finish_rsp : (p.finish e st).rsp = some st := rfl
@[simp] theorem PortState.finish_draws : (p.finish e st).draws = p.draws := rfl

@[simp] theorem PortState.begin_zero : p.begin e st next 0 = p.finish e st := rfl
@[simp] theorem PortState.begin_succ : p.begin e st next (n + 1) = p.quiet e (next n) := rfl
@[simp] theorem afterBeat_zero : afterBeat next 0 = .idle := rfl
@[simp] theorem afterBeat_succ : afterBeat next (n + 1) = next n := rfl

@[simp] theorem Engine.advance_kv : e.advance.kv = e.kv := rfl
@[simp] theorem Engine.advance_iv : e.advance.iv = e.iv := rfl
@[simp] theorem Engine.advance_cur : e.advance.cur = clockRegs e.cur := rfl

@[simp] theorem Phase.cmdReady_idle : Phase.idle.cmdReady = true := rfl
@[simp] theorem Phase.cmdReady_stepping : (Phase.stepping n).cmdReady = false := rfl
@[simp] theorem Phase.cmdReady_crypting : (Phase.crypting n).cmdReady = false := rfl
@[simp] theorem Phase.cmdReady_keying (k : Bits) : (Phase.keying k n).cmdReady = false := rfl
@[simp] theorem Phase.cmdReady_draining : (Phase.draining n st).cmdReady = false := rfl

end PortUpdates

@[simp] theorem presentedBits_nil : presentedBits [] = [] := rfl
@[simp] theorem presentedBits_none (ds : List (Option Bit)) :
    presentedBits (none :: ds) = presentedBits ds := rfl
@[simp] theorem presentedBits_some (x : Bit) (ds : List (Option Bit)) :
    presentedBits (some x :: ds) = x :: presentedBits ds := rfl

/-- An edge with `RST_N = 1` is a beat; with `RST_N = 0` it is the hardware reset. -/
theorem edge_cases (p : PortState) (i : PortsIn) :
    (i.rstN = true ∧ edge p i = beat p i) ∨ (i.rstN = false ∧ edge p i = p.hardwareReset) := by
  cases h : i.rstN
  · exact .inr ⟨rfl, by simp [edge, h]⟩
  · exact .inl ⟨rfl, by simp [edge, h]⟩

/-- A cycle that follows an edge with `RST_N = 1` is shown with it (log 16). -/
@[simp] theorem cycleRstN_of_high {i : PortsIn} (h : i.rstN = true) (is : List PortsIn) : cycleRstN i is = true := by
  cases is <;> simp [cycleRstN, h]

/-- The cycle between an edge with `RST_N = 0` and one with `RST_N = 1`, whatever the engine was doing before: ready
for a header and nothing valid (log 17). -/
theorem observe_release (p : PortState) {i j : PortsIn} (is : List PortsIn) (hi : i.rstN = false)
    (hj : j.rstN = true) : observe p (i :: j :: is) = ⟨true, false, none, none⟩ :: observe (edge p i) (j :: is) := by
  simp [observe, cycleRstN, ports, edge, hi, hj, PortState.hardwareReset, Phase.dinReady]

/-- An idle engine with no header presented stays as it is, with nothing valid. -/
theorem beat_idle {p : PortState} {i : PortsIn} (h : p.phase = .idle) (hc : i.cmd = none) :
    beat p i = p.quiet p.engine .idle := by simp [beat, h, hc]

end Sys2Proof.Machine
end

