-- ==== Sys2Proof/Tests/Slice0.lean ====
section
/-! SUPPORT. Tests: decoding words written from the spec's encoding, the WellFormed smoke test, one step on small states. Expected values are those of 95_test_vectors.md. -/

namespace Sys2Proof.Machine

/-- A keyed engine with nothing presented: KEY0 split into the initial vectors, the given current registers. -/
def keyed0 (cur : Regs) (din : Bits) : State := ⟨⟨true, split key0, cur⟩, [], din, [], 0⟩

/-- Row 0 of 95 section 2.2. -/
def row0 : Regs := regsOf 1101001110111100100 1011011011110101001001 11101111010010011011010

/-- Row 1 of 95 section 2.2. -/
def row1 : Regs := regsOf 0110100111011110010 1101101101111010100100 11101111010010011011010

/-- Row 8 of 95 section 2.2. -/
def row8 : Regs := regsOf 0000000110100111011 1101101101101101111010 11101110111101001001101

/-- The engine and the responses of a next state. -/
def seen : Result → Option (Engine × List Response)
  | .next t => some (t.engine, t.delivered)
  | .fault _ => none
  | .refused _ => none

-- Decoding (R71, R73; 95 section 2.8): OP, RSV, LEN written out bit by bit.
theorem test_decode_loadkey :
    decode 0b001_00000_000000000000000001000000#32 = .command (.loadkey 64) := by decide
theorem test_decode_reset : decode 0b010_00000_000000000000000000000000#32 = .command .reset := by decide
theorem test_decode_step : decode 0b011_00000_000000000000000000000000#32 = .command .step := by decide
theorem test_decode_genks :
    decode 0b100_00000_111111111111111111111111#32 = .command (.genks 16777215) := by decide
theorem test_decode_encrypt :
    decode 0b101_00000_000000000000000000101111#32 = .command (.encrypt 47) := by decide
theorem test_decode_decrypt :
    decode 0b110_00000_000000000000000000101111#32 = .command (.decrypt 47) := by decide
theorem test_decode_opcode_000 : decode 0x00000000#32 = .illegal .reservedOpcode := by decide
theorem test_decode_opcode_111 : decode 0xE0000000#32 = .illegal .reservedOpcode := by decide
theorem test_decode_rsv_low : decode 0x21000040#32 = .illegal .reservedField := by decide
theorem test_decode_rsv_high : decode 0x90000008#32 = .illegal .reservedField := by decide
theorem test_decode_reset_count : decode 0x40000001#32 = .illegal .countOnFormatZ := by decide
theorem test_decode_step_count : decode 0x60000008#32 = .illegal .countOnFormatZ := by decide
theorem test_encode_genks8 : encode (.genks 8) = 0x80000008#32 := by decide

-- WellFormed refuses a count that LEN cannot hold, one term for each check (R74, R82).
theorem test_wf_loadkey : WellFormed (.loadkey 16777216) = false := by decide
theorem test_wf_genks : WellFormed (.genks 16777216) = false := by decide
theorem test_wf_encrypt : WellFormed (.encrypt 16777216) = false := by decide
theorem test_wf_decrypt : WellFormed (.decrypt 16777216) = false := by decide
theorem test_wf_largest : WellFormed (.genks 16777215) = true := by decide

-- LOADKEY (R100 example; 95 section 2.1 and 2.7).
theorem test_loadkey_key0 :
    seen (exec (.loadkey 64) { State.reset with din := key0 }) = some (⟨true, row0, row0⟩, [⟨.ok, []⟩]) := by
  decide
theorem test_loadkey_65 :
    seen (exec (.loadkey 65) (keyed0 row8 (key0 ++ [true]))) =
      some (⟨true, row0, row8⟩, [⟨.invalidKeyLength, []⟩]) := by decide

-- RESET (R104 example; 95 section 2.9).
theorem test_reset_restores :
    seen (exec .reset (keyed0 row8 [])) = some (⟨true, row0, row0⟩, [⟨.ok, []⟩]) := by decide
theorem test_reset_no_key :
    (seen (exec .reset State.reset)).map (·.2) = some [⟨.noKey, []⟩] := by decide

-- STEP (R128 worked step; 95 section 2.2 row 1, section 2.6 ONES).
theorem test_step_row1 :
    seen (exec .step (keyed0 row0 [])) = some (⟨true, row0, row1⟩, [⟨.ok, [false]⟩]) := by decide
theorem test_step_ones :
    (seen (exec .step (keyed0 (split (List.replicate 64 true)) []))).map (fun o => (o.1.cur, o.2)) =
      some (regsOf 0111111111111111111 0111111111111111111111 01111111111111111111111, [⟨.ok, [true]⟩]) := by
  decide

-- GENKS (R151 example; 95 section 2.4).
theorem test_genks_8 :
    seen (exec (.genks 8) (keyed0 row0 [])) =
      some (⟨true, row0, row8⟩, [⟨.ok, digits 8 01110010⟩]) := by decide
theorem test_genks_0 :
    seen (exec (.genks 0) (keyed0 row8 [])) = some (⟨true, row0, row8⟩, [⟨.ok, []⟩]) := by decide

-- ENCRYPT and DECRYPT (R155, R156 examples; R157 (a), (c)): the keystream restarts from the key.
theorem test_encrypt_8 :
    seen (exec (.encrypt 8) (keyed0 row1 (digits 8 10101010))) =
      some (⟨true, row0, row8⟩, [⟨.ok, digits 8 11011000⟩]) := by decide
theorem test_encrypt_empty :
    seen (exec (.encrypt 0) (keyed0 row8 [])) = some (⟨true, row0, row0⟩, [⟨.ok, []⟩]) := by decide
theorem test_decrypt_8 :
    seen (exec (.decrypt 8) (keyed0 row8 (digits 8 11011000))) =
      some (⟨true, row0, row8⟩, [⟨.ok, digits 8 10101010⟩]) := by decide
theorem test_decrypt_no_key :
    (seen (exec (.decrypt 3) { State.reset with din := [true, false, true] })).map (·.2) =
      some [⟨.noKey, []⟩] := by decide

-- The step takes the presented packet (R57), and an illegal header takes no payload (R174).
theorem test_step_runs_presented_word :
    seen (step (State.withFetchWord State.reset 32 0xA0000003)) = some (Engine.reset, [⟨.noKey, []⟩]) := by
  decide
theorem test_step_illegal_header :
    seen (step (State.withFetchWord (keyed0 row8 []) 32 0x60000001)) =
      some (⟨true, row0, row8⟩, [⟨.illegalCommand, []⟩]) := by decide

-- The notation (R83) and the front end (R173; 95 section 1.4).
theorem test_genksl_expansion : genkslCounts 16777216 = [16777215, 1] := by decide
theorem test_front_end_102 :
    frontEnd (.encrypt ['1', '0', '2']) = .rejects .invalidInputFormat := by decide
theorem test_front_end_length_before_characters :
    frontEnd (.construct (List.replicate 63 'x')) = .rejects .invalidKeyLength := by decide

-- The ports (R213, R214): STEP takes one beat after its header, DOUT and RSP_STATUS are valid with it.
theorem test_ports_step :
    observe ⟨⟨true, row0, row0⟩, .idle, none, none, 0⟩ (drive 0x60000000 [none, none]) =
      [⟨false, false, none, none⟩, ⟨true, false, some false, some .ok⟩, ⟨true, false, none, none⟩] := by decide

-- ENCRYPT with a late payload bit (R205, R213): 95 section 2.5, 10 becomes 11.
theorem test_ports_encrypt :
    observe ⟨⟨true, row0, row8⟩, .idle, none, none, 0⟩ (drive 0xA0000002 [some true, none, some false]) =
      [⟨false, true, none, none⟩, ⟨false, true, some true, none⟩, ⟨false, true, none, none⟩,
        ⟨true, false, some true, some .ok⟩] := by decide

-- Release of RST_N (R200, R202, R203): CMD_READY = 1 in the cycle of the release, the edge that ends it takes the
-- header of RESET (log 17), and KV = 0 gives NoKey.
theorem test_ports_release :
    observe ⟨⟨true, row0, row8⟩, .crypting 3, none, none, 0⟩
        [⟨false, none, none⟩, ⟨false, none, none⟩, ⟨true, some 0x40000000, none⟩] =
      [⟨false, false, none, none⟩, ⟨true, false, none, none⟩, ⟨true, false, none, some .noKey⟩] := by decide

/-! Witnesses: for every statement with hypotheses, a state and operands that meet them together. -/

/-- A keyed state at row 8 with 8 payload bits on DIN. -/
def keyed8 : State := keyed0 row8 (digits 8 10101010)

/-- A state whose host presents this packet and then a hardware reset. -/
def presents (s : State) (h : Header) (payload : Bits) : State :=
  { s with input := [.packet ⟨h, payload⟩, .hardwareReset] }

/-- The idle port engine of a keyed state. -/
def port8 : PortState := ⟨keyed8.engine, .idle, none, none, 0⟩

-- DecodeOfEncodeIsTheCommand, at the bounds of LEN
theorem test_witness_wellformed :
    WellFormed (.loadkey 0) = true ∧ WellFormed .reset = true ∧ WellFormed .step = true ∧
      WellFormed (.genks 16777215) = true ∧ WellFormed (.encrypt 16777215) = true ∧
      WellFormed (.decrypt 0) = true := by decide

-- EachCommandHasOneHeader, PayloadLengthIsKnownFromTheHeader: each clause
theorem test_witness_decoded :
    decode 0x20FFFFFF#32 = .command (.loadkey 16777215) ∧ decode 0xA0000000#32 = .command (.encrypt 0) ∧
      decode 0xC0000001#32 = .command (.decrypt 1) ∧ decode 0x40000000#32 = .command .reset ∧
      decode 0x60000000#32 = .command .step ∧ decode 0x80000001#32 = .command (.genks 1) ∧
      decode 0xFFFFFFFF#32 = .illegal .reservedField := by decide

-- StepRunsTheDecodedCommand, EveryPacketGetsOneResponse, and Complete for MissingPayloadLeavesTheEngineWaiting
theorem test_witness_packet_presented :
    (presents keyed8 0xA0000002 [true, true]).input =
        .packet ⟨0xA0000002, [true, true]⟩ :: [.hardwareReset] ∧
      decode 0xA0000002 = .command (.encrypt 2) ∧ headerPayloadLen 0xA0000002 ≤ [true, true].length := by decide

-- MissingPayloadLeavesTheEngineWaiting, the waiting side, one bit short
theorem test_witness_packet_short :
    (presents keyed8 0xA0000002 [true]).input = .packet ⟨0xA0000002, [true]⟩ :: [.hardwareReset] ∧
      ¬ headerPayloadLen 0xA0000002 ≤ [true].length := by decide

-- IllegalHeaderRaisesIllegalCommand
theorem test_witness_illegal_presented :
    (presents keyed8 0x21000040 []).input = .packet ⟨0x21000040, []⟩ :: [.hardwareReset] ∧
      decode 0x21000040 = .illegal .reservedField := by decide

-- NothingPresentedNothingDone, HardwareResetForgetsTheKey
theorem test_witness_nothing_presented : State.reset.input = [] := by decide
theorem test_witness_reset_presented :
    ({ keyed8 with input := [.hardwareReset] } : State).input = .hardwareReset :: [] := by decide

-- ChecksAreMadeInOrder: every clause (illegal, wrong length, right length, no key, executed)
theorem test_witness_checks_illegal : ∃ t, step (presents keyed8 0xE0000000 []) = .next t := ⟨_, rfl⟩
theorem test_witness_checks_length : ∃ t, step (presents keyed8 0x20000001 [true]) = .next t := ⟨_, rfl⟩
theorem test_witness_checks_loadkey : ∃ t, step (presents keyed8 0x20000040 key0) = .next t := ⟨_, rfl⟩
theorem test_witness_checks_no_key : ∃ t, step (presents State.reset 0x60000000 []) = .next t := ⟨_, rfl⟩
theorem test_witness_checks_ok : ∃ t, step (presents keyed8 0x60000000 []) = .next t := ⟨_, rfl⟩

-- ErrorsChangeNothing
theorem test_witness_error :
    ∃ t r, step (presents keyed8 0x20000001 [true]) = .next t ∧
      t.delivered = (presents keyed8 0x20000001 [true]).delivered ++ [r] ∧ r.status ≠ .ok :=
  ⟨_, _, rfl, rfl, by decide⟩

-- CommandsWithoutKeyRaiseNoKey: the five commands, payload of one bit
theorem test_witness_no_key :
    let s : State := { State.reset with din := [true] }
    s.engine.kv = false ∧ ∀ i ∈ [Instr.reset, .step, .genks 1, .encrypt 1, .decrypt 1],
      needsKey i = true ∧ payloadLen i ≤ s.din.length := by decide

-- LoadkeyInstallsTheKey, EveryKeystreamPositionIsReached, SplitFollowsTheKeyMap (each clause at its bounds)
theorem test_witness_key : key0.length = 64 ∧ 64 ≤ ({ State.reset with din := key0 } : State).din.length := by
  decide
theorem test_witness_split_bounds :
    key0[0]? = some (row0.a.getLsbD 0) ∧ key0[18]? = some (row0.a.getLsbD 18) ∧
      key0[19]? = some (row0.b.getLsbD 0) ∧ key0[40]? = some (row0.b.getLsbD 21) ∧
      key0[41]? = some (row0.c.getLsbD 0) ∧ key0[63]? = some (row0.c.getLsbD 22) := by decide

-- LoadkeyOfOtherLengthChangesNothing, lengths 0, 63, 65
theorem test_witness_other_lengths :
    let s : State := { State.reset with din := key0 ++ [true] }
    ∀ n ∈ [0, 63, 65], n ≠ 64 ∧ n ≤ s.din.length := by decide

-- The statements with a key and a payload: ResetRestoresTheRegisters, StepCommandTakesOneStep,
-- GenksRunsTheCountedSteps, KeystreamContinues, EncryptTransformsThePayload, DecryptTransformsThePayload,
-- TransformIgnoresEarlierProgress, CommandsThatAgree, EncryptIsResetGenksAndXor, GenkslIsTheKeystreamOfItsCount
theorem test_witness_keyed : keyed8.engine.kv = true ∧ 8 ≤ keyed8.din.length ∧ 0 ≤ keyed8.din.length := by decide

-- ResetIsIdempotent, both clauses, and ResetAlwaysReturnsToTheLoadedState
theorem test_witness_reset_twice : ∃ t u, exec .reset keyed8 = .next t ∧ exec .reset t = .next u :=
  ⟨_, _, rfl, rfl⟩
theorem test_witness_reset_after_loadkey :
    ∃ t u v, exec (.loadkey 64) { State.reset with din := key0 } = .next t ∧
      (∀ c ∈ [(Instr.step, ([] : Bits)), (.encrypt 1, [true])], c.1 ≠ .loadkey 64) ∧
      execAll t [(.step, []), (.encrypt 1, [true])] = .next u ∧ exec .reset u = .next v :=
  ⟨_, _, _, rfl, by decide, rfl, rfl⟩
theorem test_witness_reset_directly :
    ∃ t u, exec (.loadkey 64) { State.reset with din := key0 } = .next t ∧ exec .reset t = .next u :=
  ⟨_, _, rfl, rfl⟩

-- ShiftPutsTheFeedbackInFront, the shortest register; KeystreamBitsComeInOrder
theorem test_witness_lengths : 0 < 1 ∧ (1 ≤ 1 ∧ 1 < 2) ∧ (0 : Nat) < 1 := by decide

-- AllZeroRegistersStayZero and TwoZeroRegistersStopTheThird (R132 (f): the state the key 1, 0, 0, ... reaches)
theorem test_witness_zero_registers :
    Regs.zero.a = 0#19 ∧ Regs.zero.b = 0#22 ∧ Regs.zero.c = 0#23 := by decide
theorem test_witness_stuck :
    (regsOf 0000000010000000000 0 0).a.getLsbD 8 = true ∧ (regsOf 0 0000000000100000000000 0).b.getLsbD 10 = true ∧
      (regsOf 0 0 00000000001000000000000).c.getLsbD 10 = true := by decide

-- EachOutputBitIsInputXorKeystream
theorem test_witness_bits :
    [true, false][1]? = some false ∧ 1 < [true, false].length ∧ [true, false][1]? = [false, false, true][1]? := by
  decide

-- DecryptUndoesEncrypt, with a STEP in between
theorem test_witness_round_trip :
    ∃ t c u, exec (.encrypt 2) { keyed8 with din := [true, false] } = .next t ∧
      t.delivered = keyed8.delivered ++ [⟨.ok, c⟩] ∧
      (∀ x ∈ [(Instr.step, ([] : Bits))], x.1 ≠ .loadkey 64) ∧ execAll t [(.step, [])] = .next u :=
  ⟨_, _, _, rfl, rfl, by decide, rfl⟩

-- KeystreamContinuesAfterEncrypt, EveryCommandKeepsItsFrame (each clause)
theorem test_witness_encrypt_next : ∃ t, exec (.encrypt 8) keyed8 = .next t := ⟨_, rfl⟩
theorem test_witness_loadkey_next : ∃ t, exec (.loadkey 64) { keyed8 with din := key0 } = .next t := ⟨_, rfl⟩
theorem test_witness_error_next :
    ∃ t r, exec .step State.reset = .next t ∧ t.delivered = State.reset.delivered ++ [r] ∧ r.status ≠ .ok :=
  ⟨_, _, rfl, rfl, by decide⟩

-- EveryStepKeepsTheKeystreamInvariant
theorem test_witness_invariant :
    (keyed0 row1 []).engine.Inv ∧ ∃ t, step (presents (keyed0 row1 []) 0x60000000 []) = .next t :=
  ⟨fun _ => ⟨1, by decide⟩, _, rfl⟩

-- RegistersAreNeverReadWithoutKey: two keyless states with different registers, LOADKEY answering
theorem test_witness_agree_but_regs :
    let s : State := { State.reset with din := key0 }
    let t : State := { s with engine := ⟨false, row0, row8⟩ }
    (s.AgreeButRegs t ∧ s.engine.kv = false ∧ s.engine ≠ t.engine) ∧ ∃ u, exec (.loadkey 64) s = .next u :=
  ⟨⟨⟨rfl, rfl, rfl, rfl, rfl⟩, rfl, by decide⟩, _, rfl⟩

-- DutifulHostNeverStopsTheEngine
theorem test_witness_duty : (presents keyed8 0xA0000002 [true, true]).HostKeepsDuty := by
  intro p hp
  have : p = ⟨0xA0000002, [true, true]⟩ := by simpa [presents] using hp
  subst this
  exact (by decide : headerPayloadLen 0xA0000002 ≤ 2)

-- FrontEndRejectsBeforeTheEngine, each clause at its bounds
theorem test_witness_front_end :
    (List.replicate 63 '0').length ≠ 64 ∧ (List.replicate 65 '0').length ≠ 64 ∧
      ('2' :: List.replicate 63 '0').length = 64 ∧
      (∃ c ∈ '2' :: List.replicate 63 '0', c ≠ '0' ∧ c ≠ '1') ∧ (∃ c ∈ ['1', '0', '2'], c ≠ '0' ∧ c ≠ '1') ∧
      key0.length = 64 ∧ ([] : Bits).length ≤ 16777215 :=
  ⟨by decide, by decide, by decide, ⟨'2', List.mem_cons_self, by decide⟩, ⟨'2', by simp, by decide⟩, by decide, by decide⟩

-- PortsCarryTheAtomicCommands, with a late bit and one bit too many
theorem test_witness_ports :
    let dins := [none, some true, none, some false, some true]
    port8.phase = .idle ∧ (presents keyed8 0xA0000002 (presentedBits dins)).engine = port8.engine ∧
      (presents keyed8 0xA0000002 (presentedBits dins)).input =
        .packet ⟨0xA0000002, presentedBits dins⟩ :: [.hardwareReset] ∧
      headerPayloadLen 0xA0000002 ≤ (presentedBits dins).length ∧
      headerBeats port8.engine.kv 0xA0000002 ≤ dins.length := by decide

-- PortEngineWaitsForMissingBits, ResponseComesAfterTheCountedBeats
theorem test_witness_ports_short :
    port8.phase = .idle ∧ (presentedBits [some true, none]).length < headerPayloadLen 0xA0000002 := by decide
theorem test_witness_ports_beats :
    port8.phase = .idle ∧ [some true, some false].length = headerBeats port8.engine.kv 0xA0000002 ∧
      ∀ d ∈ [some true, some false], d.isSome = true := by decide

-- PortResetOverridesEverything, BusyEngineTakesNoHeader
theorem test_witness_ports_reset : (⟨false, some 0x60000000, none⟩ : PortsIn).rstN = false := by decide
theorem test_witness_ports_busy : ({ port8 with phase := .crypting 3 } : PortState).phase ≠ .idle := by decide

end Sys2Proof.Machine
end

section
/-! PROOFS. What a step that takes a packet answers, and that an error response changes nothing (R10, R177). -/

namespace Sys2Proof.Machine

/-- Everything a step that takes a packet and goes on can do: the packet is off the input, its payload is gone, one
response is delivered, and an error response leaves the engine and has no bits (R57, R177). -/
theorem step_packet_next_cases {s t : State} {p : Packet} {rest : List Input} (hin : s.input = .packet p :: rest)
    (h : step s = .next t) :
    ∃ e r, t = { s with engine := e, input := rest, din := [], delivered := s.delivered ++ [r] } ∧
      (r.status ≠ .ok → e = s.engine ∧ r.bits = []) := by
  rw [step_packet hin] at h
  obtain ⟨i, -, hacc⟩ | ⟨w, -, hacc⟩ := acceptPacket_cases p { s with input := rest }
  · rw [hacc] at h
    obtain ⟨-, e, bits, rfl, herr, -⟩ := exec_next_cases h
    exact ⟨e, ⟨statusOf s.engine.kv i, bits⟩, rfl, herr⟩
  · rw [hacc] at h
    cases h
    exact ⟨s.engine, ⟨.illegalCommand, []⟩, rfl, fun _ => ⟨rfl, rfl⟩⟩

/-- Settles O14: the response named is the one the step delivers, and the cases of a packet's step give the rest. -/
theorem errorsChangeNothing : Obligations.ErrorsChangeNothing := by
  intro s t p rest r hin hstep hdel hst
  obtain ⟨e, r', rfl, herr⟩ := step_packet_next_cases hin hstep
  obtain rfl : r' = r := List.singleton_inj.mp (List.append_cancel_left hdel)
  obtain ⟨he, hbits⟩ := herr hst
  exact ⟨he, hbits, rfl, rfl, rfl⟩

end Sys2Proof.Machine
end

section
/-! PROOFS. More laws of the step and of the commands: which input a step takes, what a command can do to the engine. -/

namespace Sys2Proof.Machine

/-- A step with nothing presented stays where it is (R79; log 12). -/
theorem step_nothing {s : State} (h : s.input = []) : step s = .next s := by simp [step, acceptNext, h]

theorem acceptPacket_of_command {p : Packet} {i : Instr} (h : decode p.header = .command i) (s : State) :
    acceptPacket p s = exec i { s with din := p.payload } := by simp [acceptPacket, h]

theorem acceptPacket_of_illegal {p : Packet} {w : Illegal} (h : decode p.header = .illegal w) (s : State) :
    acceptPacket p s = .next (s.raiseError .illegalCommand) := by simp [acceptPacket, h]

/-- The step that takes a packet with a legal header executes its command (R57, R80). -/
theorem step_command {s : State} {p : Packet} {rest : List Input} {i : Instr} (hin : s.input = .packet p :: rest)
    (h : decode p.header = .command i) : step s = exec i { s with input := rest, din := p.payload } := by
  rw [step_packet hin, acceptPacket_of_command h]

/-- Where a command with a payload goes on, it goes on from the first `n` bits. -/
theorem withPayload_next {n : Nat} {s t : State} {k : Bits → Result} (h : withPayload n s k = .next t) :
    k (s.din.take n) = .next t := by
  obtain ⟨-, hk⟩ | ⟨-, hk⟩ := withPayload_cases n s k
  · rwa [hk] at h
  · rw [hk] at h
    cases h

/-- Where a command that needs the key goes on, it had the key, or the engine is left alone (R172). -/
theorem withKey_next {s k t : State} (h : withKey s k = .next t) :
    (s.engine.kv = true ∧ t = k) ∨ t.engine = s.engine := by
  obtain ⟨hkv, hk⟩ | ⟨-, hk⟩ := withKey_cases s k
  · rw [hk] at h
    cases h
    exact .inl ⟨hkv, rfl⟩
  · rw [hk] at h
    cases h
    exact .inr rfl

/-- A LOADKEY of 64 bits with its payload present (R100). -/
theorem exec_loadkey64 {s : State} (h : 64 ≤ s.din.length) :
    exec (.loadkey 64) s =
      .next ((s.setEngine ⟨true, split (s.din.take 64), split (s.din.take 64)⟩).respond .ok []) :=
  withPayload_of_le h

/-- Where a LOADKEY of 64 bits goes on, its payload was present and is the key. -/
theorem exec_loadkey64_next {s t : State} (h : exec (.loadkey 64) s = .next t) :
    t.engine = ⟨true, split (s.din.take 64), split (s.din.take 64)⟩ := by
  obtain ⟨hlen, -⟩ := exec_next_cases h
  rw [exec_loadkey64 hlen] at h
  cases h
  rfl

/-- STEP with a key (R130). -/
theorem exec_step_of_key {s : State} (h : s.engine.kv = true) :
    exec .step s =
      .next ((s.setEngine (s.engine.setRegs (clockRegs s.engine.cur))).respond .ok
        [outBit (clockRegs s.engine.cur)]) :=
  withKey_of_key h

/-- Everything a command can do to the engine: nothing, loading a key, or with a key advancing the registers from
where they are (STEP, GENKS) or from the initial vectors (RESET, ENCRYPT, DECRYPT). -/
theorem exec_next_engine_cases {i : Instr} {s t : State} (h : exec i s = .next t) :
    t.engine = s.engine ∨
      (∃ k, i = .loadkey 64 ∧ t.engine = ⟨true, k, k⟩) ∨
      (s.engine.kv = true ∧ ∃ n,
        t.engine = s.engine.setRegs (genF s.engine.cur n).1 ∨
          t.engine = s.engine.setRegs (genF s.engine.iv n).1) := by
  cases i with
  | loadkey len =>
    by_cases hl : len = 64
    · subst hl
      exact .inr (.inl ⟨_, rfl, exec_loadkey64_next h⟩)
    · obtain ⟨-, e, bits, rfl, herr, -⟩ := exec_next_cases h
      exact .inl (herr (by simp [statusOf, Config.keyLen, hl])).1
  | reset =>
    obtain ⟨hkv, rfl⟩ | heng := withKey_next h
    · exact .inr (.inr ⟨hkv, 0, .inr rfl⟩)
    · exact .inl heng
  | step =>
    obtain ⟨hkv, rfl⟩ | heng := withKey_next h
    · exact .inr (.inr ⟨hkv, 1, .inl rfl⟩)
    · exact .inl heng
  | genks n =>
    obtain ⟨hkv, rfl⟩ | heng := withKey_next h
    · exact .inr (.inr ⟨hkv, n, .inl rfl⟩)
    · exact .inl heng
  | encrypt len | decrypt len =>
    obtain ⟨hkv, rfl⟩ | heng := withKey_next (withPayload_next h)
    · exact .inr (.inr ⟨hkv, (s.din.take len).length, .inr rfl⟩)
    · exact .inl heng

/-- Settles O9: the first of the cases of a step. -/
theorem nothingPresentedNothingDone : Obligations.NothingPresentedNothingDone := fun _ => step_nothing

/-- Settles O11: every clause is read off the two reset states. -/
theorem resetStateIsIdleWithoutKey : Obligations.ResetStateIsIdleWithoutKey := ⟨rfl, rfl, rfl, rfl, rfl⟩

/-- Settles O48: the cases of a command's next state, and the engine that a LOADKEY of 64 bits leaves. -/
theorem everyCommandKeepsItsFrame : Obligations.EveryCommandKeepsItsFrame := by
  intro i s t h
  have hload : i = .loadkey 64 → t.engine.kv = true ∧ t.engine.cur = t.engine.iv := by
    rintro rfl
    rw [exec_loadkey64_next h]
    exact ⟨rfl, rfl⟩
  obtain ⟨-, e, bits, rfl, herr, hframe⟩ := exec_next_cases h
  refine ⟨rfl, rfl, rfl, fun hi => (hframe hi).symm, hload, fun r hdel hst => ?_⟩
  obtain rfl : ⟨statusOf s.engine.kv i, bits⟩ = r := List.singleton_inj.mp (List.append_cancel_left hdel)
  exact (herr hst).1

end Sys2Proof.Machine
end

section
/-! PROOFS. The registers stay on the keystream of the key (R30), and every position of it is reached. -/

namespace Sys2Proof.Machine

/-- `m + n` steps are `m` steps and then `n` more (R152). -/
theorem genF_add (r : Regs) (m n : Nat) :
    genF r (m + n) = ((genF (genF r m).1 n).1, (genF r m).2 ++ (genF (genF r m).1 n).2) := by
  induction m generalizing r with
  | zero => simp
  | succ m ih => simp [Nat.succ_add, genF_succ, ih]

theorem Engine.inv_of_noKey {e : Engine} (h : e.kv = false) : e.Inv := fun hkv => by simp [h] at hkv

/-- A freshly loaded key stands at position 0 of its keystream. -/
theorem Engine.onKeystream_load (k : Regs) : (⟨true, k, k⟩ : Engine).onKeystream := ⟨0, rfl⟩

/-- Steps taken from the current registers add to the steps taken before. -/
theorem Engine.onKeystream.advance {e : Engine} (h : e.onKeystream) (n : Nat) :
    (e.setRegs (genF e.cur n).1).onKeystream := by
  obtain ⟨m, hm⟩ := h
  exact ⟨m + n, by simp [genF_add, hm]⟩

/-- A keystream restarted from the initial vectors forgets the steps taken before. -/
theorem Engine.onKeystream_restart (e : Engine) (n : Nat) : (e.setRegs (genF e.iv n).1).onKeystream := ⟨n, rfl⟩

/-- Every command keeps the invariant of R30. -/
theorem exec_keeps_inv {i : Instr} {s t : State} (hinv : s.engine.Inv) (h : exec i s = .next t) : t.engine.Inv := by
  obtain heng | ⟨k, -, heng⟩ | ⟨hkv, n, heng | heng⟩ := exec_next_engine_cases h
  · rwa [heng]
  · exact fun _ => heng ▸ Engine.onKeystream_load k
  · exact fun _ => heng ▸ (hinv hkv).advance n
  · exact fun _ => heng ▸ Engine.onKeystream_restart s.engine n

/-- Accepting a packet keeps it, with a legal header or an illegal one. -/
theorem acceptPacket_keeps_inv {p : Packet} {s t : State} (hinv : s.engine.Inv)
    (h : acceptPacket p s = .next t) : t.engine.Inv := by
  obtain ⟨i, -, hacc⟩ | ⟨w, -, hacc⟩ := acceptPacket_cases p s
  · exact exec_keeps_inv (s := { s with din := p.payload }) hinv (hacc.symm.trans h)
  · cases hacc.symm.trans h
    exact hinv

/-- Settles O49: there is no key at reset. -/
theorem keystreamInvariantHoldsAtReset : Obligations.KeystreamInvariantHoldsAtReset := Engine.inv_of_noKey rfl

/-- Settles O50, over the three inputs a step can take: nothing changes nothing, a packet keeps the invariant, and a
hardware reset leaves no key. -/
theorem everyStepKeepsTheKeystreamInvariant : Obligations.EveryStepKeepsTheKeystreamInvariant := by
  intro s t hinv h
  obtain ⟨-, hacc⟩ | ⟨p, rest, -, hacc⟩ | ⟨rest, -, hacc⟩ := acceptNext_cases s
  · cases hacc.symm.trans h
    exact hinv
  · exact acceptPacket_keeps_inv (s := { s with input := rest }) hinv (hacc.symm.trans h)
  · cases hacc.symm.trans h
    exact Engine.inv_of_noKey rfl

/-- A run over `n` presented STEP packets advances a keyed engine by `n` steps and takes all of them. -/
theorem run_step_packets (n : Nat) (s : State) (hkv : s.engine.kv = true)
    (hin : s.input = List.replicate n (.packet ⟨encode .step, []⟩)) :
    ∃ t, Host.Core.run Sys2Proof.core n s = .next t ∧
      t.engine = s.engine.setRegs (genF s.engine.cur n).1 ∧ t.input = [] := by
  induction n generalizing s with
  | zero => exact ⟨s, rfl, rfl, hin⟩
  | succ n ih =>
    have hstep := (step_command hin (i := .step) (by decide)).trans (exec_step_of_key hkv)
    rw [core_run_succ n hstep]
    exact ih _ hkv rfl

/-- The step that takes a LOADKEY packet of 64 bits installs its payload as the key (R100). -/
theorem step_loadkey_packet {s : State} {k : Bits} {rest : List Input} (hk : k.length = 64)
    (hin : s.input = .packet ⟨encode (.loadkey 64), k⟩ :: rest) :
    ∃ t, step s = .next t ∧ t.engine = ⟨true, split k, split k⟩ ∧ t.input = rest := by
  have hdec : decode (encode (.loadkey 64)) = .command (.loadkey 64) := by decide
  have htake : k.take 64 = k := List.take_of_length_le hk.le
  exact ⟨_, (step_command hin hdec).trans (exec_loadkey64 hk.ge), by simp [htake], rfl⟩

/-- From any state, a LOADKEY packet of the key and `n` STEP packets lead to position `n` of its keystream. -/
theorem run_loadkey_and_step_packets {s : State} {k : Bits} (n : Nat) (hk : k.length = 64)
    (hin : s.input = .packet ⟨encode (.loadkey 64), k⟩ :: List.replicate n (.packet ⟨encode .step, []⟩)) :
    ∃ t, Host.Core.run Sys2Proof.core (n + 1) s = .next t ∧
      t.engine = ⟨true, split k, (genF (split k) n).1⟩ ∧ t.input = [] := by
  obtain ⟨u, hstep, hload, hrest⟩ := step_loadkey_packet hk hin
  obtain ⟨t, hrun, hadv, hend⟩ := run_step_packets n u (by rw [hload]) hrest
  rw [core_run_succ n hstep]
  exact ⟨t, hrun, by simp [hadv, hload, Engine.setRegs], hend⟩

/-- Settles O51: the run above, from reset. -/
theorem everyKeystreamPositionIsReached : Obligations.EveryKeystreamPositionIsReached :=
  fun _ n hk => run_loadkey_and_step_packets n hk rfl

end Sys2Proof.Machine
end

section
/-! PROOFS. Without a key the contents of the six registers are never read (R26, R34). -/

namespace Sys2Proof.Machine

theorem AlikeButRegs.of_eq {x y : Result} (h : x = y) : AlikeButRegs x y := by
  subst h
  cases x with
  | next s => exact ⟨rfl, rfl, rfl, rfl, rfl⟩
  | fault f => rfl
  | refused r => rfl

section Agree
variable {s t : State} (h : s.AgreeButRegs t)
include h

theorem State.AgreeButRegs.kv_eq : s.engine.kv = t.engine.kv := h.1
theorem State.AgreeButRegs.input_eq : s.input = t.input := h.2.1
theorem State.AgreeButRegs.din_eq : s.din = t.din := h.2.2.1

/-- With the engine replaced, nothing is left in which the two states could differ. -/
theorem State.AgreeButRegs.setEngine_eq (e : Engine) : s.setEngine e = t.setEngine e := by
  obtain ⟨-, hin, hdin, hdel, hdraws⟩ := h
  simp [State.setEngine, hin, hdin, hdel, hdraws]

theorem State.AgreeButRegs.with_input (rest : List Input) :
    ({ s with input := rest } : State).AgreeButRegs { t with input := rest } := by
  obtain ⟨hkv, -, hdin, hdel, hdraws⟩ := h
  exact ⟨hkv, rfl, hdin, hdel, hdraws⟩

theorem State.AgreeButRegs.with_din (bits : Bits) :
    ({ s with din := bits } : State).AgreeButRegs { t with din := bits } := by
  obtain ⟨hkv, hin, -, hdel, hdraws⟩ := h
  exact ⟨hkv, hin, rfl, hdel, hdraws⟩

theorem State.AgreeButRegs.raiseError (st : Status) : (s.raiseError st).AgreeButRegs (t.raiseError st) := by
  obtain ⟨hkv, hin, -, hdel, hdraws⟩ := h
  exact ⟨hkv, hin, rfl, congrArg (· ++ _) hdel, hdraws⟩

theorem State.AgreeButRegs.hardwareReset : s.hardwareReset.AgreeButRegs t.hardwareReset := by
  obtain ⟨-, hin, -, hdel, hdraws⟩ := h
  exact ⟨rfl, hin, rfl, hdel, congrArg (· + 2) hdraws⟩

/-- A LOADKEY of 64 bits overwrites the whole engine, so it answers the same on both states (R100). -/
theorem exec_loadkey64_eq_of_agree : exec (.loadkey 64) s = exec (.loadkey 64) t := by
  have hdin := h.din_eq
  rcases Nat.lt_or_ge t.din.length 64 with hl | hl
  · rw [exec_starved (hdin ▸ hl), exec_starved hl]
  · rw [exec_loadkey64 (hdin ▸ hl), exec_loadkey64 hl, hdin, h.setEngine_eq]

end Agree

/-- Without a key no command but a LOADKEY of 64 bits is answered OK (R171, R172). -/
theorem statusOf_noKey_ne_ok {i : Instr} (hi : i ≠ .loadkey 64) : statusOf false i ≠ .ok := by
  cases i with
  | loadkey len =>
    have hl : len ≠ 64 := fun hl => hi (hl ▸ rfl)
    simp [statusOf, Config.keyLen, hl]
  | reset | step | genks | encrypt | decrypt => simp [statusOf]

/-- Without a key every other command waits or raises its error. -/
theorem exec_noKey {i : Instr} {s : State} (hi : i ≠ .loadkey 64) (hkv : s.engine.kv = false) :
    exec i s = if payloadLen i ≤ s.din.length then .next (s.raiseError (statusOf false i))
      else .fault .payloadStarved := by
  split
  next hl =>
    obtain ⟨e, bits, hexec, herr, -⟩ := exec_answers i s hl
    rw [hkv] at hexec herr
    obtain ⟨rfl, rfl⟩ := herr (statusOf_noKey_ne_ok hi)
    exact hexec
  next hl => exact exec_starved (Nat.not_le.mp hl)

section NoKey
variable {s t : State} (h : s.AgreeButRegs t) (hkv : s.engine.kv = false)
include h hkv

theorem exec_alikeButRegs (i : Instr) : AlikeButRegs (exec i s) (exec i t) := by
  by_cases hi : i = .loadkey 64
  · subst hi
    exact .of_eq (exec_loadkey64_eq_of_agree h)
  · have hdin := h.din_eq
    rw [exec_noKey hi hkv, exec_noKey hi (h.kv_eq.symm.trans hkv), hdin]
    split
    · exact h.raiseError _
    · rfl

theorem acceptPacket_alikeButRegs (p : Packet) : AlikeButRegs (acceptPacket p s) (acceptPacket p t) := by
  cases hd : decode p.header with
  | command i =>
    rw [acceptPacket_of_command hd, acceptPacket_of_command hd]
    exact exec_alikeButRegs (h.with_din p.payload) hkv i
  | illegal w =>
    rw [acceptPacket_of_illegal hd, acceptPacket_of_illegal hd]
    exact h.raiseError .illegalCommand

theorem step_alikeButRegs : AlikeButRegs (step s) (step t) := by
  have hin := h.input_eq
  cases ht : t.input with
  | nil =>
    rw [step_nothing ht, step_nothing (hin.trans ht)]
    exact h
  | cons i rest =>
    cases i with
    | packet p =>
      rw [step_packet ht, step_packet (hin.trans ht)]
      exact acceptPacket_alikeButRegs (h.with_input rest) hkv p
    | hardwareReset =>
      rw [step_hardwareReset ht, step_hardwareReset (hin.trans ht)]
      exact (h.with_input rest).hardwareReset

end NoKey

/-- Settles O52: without a key every step is an error, a reset or a LOADKEY, and none of them reads a register. -/
theorem registersAreNeverReadWithoutKey : Obligations.RegistersAreNeverReadWithoutKey := fun _ _ h hkv =>
  ⟨step_alikeButRegs h hkv, fun _ hu => (exec_loadkey64_eq_of_agree h).symm.trans hu⟩

end Sys2Proof.Machine
end

section
/-! PROOFS. The key map loses nothing: splitting a key and joining registers undo each other (R25, R51). -/

namespace Sys2Proof.Machine

/-- A sequence of the register's length is read back as it was written. -/
theorem toBits_ofBits {n : Nat} {v : Bits} (h : v.length = n) : toBits (ofBits n v) = v := by
  refine List.ext_getElem (by simp [h]) fun i hi hv => ?_
  rw [getElem_toBits, getLsbD_ofBits]
  simp [h ▸ hv, hv]

/-- A register is written back as it was read. -/
theorem ofBits_toBits {n : Nat} (v : BitVec n) : ofBits n (toBits v) = v := by
  ext i hi
  simp [getElem_ofBits, List.getD, toBits, hi]

/-- Two adjoining slices make up one. -/
theorem slice_append_slice (k : Bits) {lo mid hi : Nat} (h1 : lo ≤ mid) (h2 : mid ≤ hi) :
    slice k lo mid ++ slice k mid hi = slice k lo hi := by
  obtain ⟨m, rfl⟩ := Nat.exists_eq_add_of_le h1
  obtain ⟨n, rfl⟩ := Nat.exists_eq_add_of_le h2
  simp [slice, Nat.add_assoc, List.take_add, List.drop_drop, Nat.add_sub_add_left]

/-- The slice between the end of one sequence and the start of another is what stands between them. -/
theorem slice_append_middle (x y z : Bits) : slice (x ++ y ++ z) x.length (x.length + y.length) = y := by
  simp [slice]

/-- The split of three sequences of the register lengths has them as its registers. -/
theorem split_append {x y z : Bits} (hx : x.length = 19) (hy : y.length = 22) (hz : z.length = 23) :
    split (x ++ y ++ z) = ⟨ofBits 19 x, ofBits 22 y, ofBits 23 z⟩ := by
  have ha : slice (x ++ y ++ z) 0 keyOffsetB = x := by
    simpa [hx, keyOffsetB] using slice_append_middle [] x (y ++ z)
  have hb : slice (x ++ y ++ z) keyOffsetB keyOffsetC = y := by
    simpa [hx, hy, keyOffsetB, keyOffsetC] using slice_append_middle x y z
  have hc : slice (x ++ y ++ z) keyOffsetC Config.keyLen = z := by
    simpa [hx, hy, hz, keyOffsetC, Config.keyLen] using slice_append_middle (x ++ y) z []
  rw [split, ha, hb, hc]

/-- The three slices of the key map make up the key. -/
theorem joinRegs_split {k : Bits} (h : k.length = 64) : joinRegs (split k) = k := by
  have ha : toBits (split k).a = slice k 0 keyOffsetB :=
    toBits_ofBits (by simp [length_slice, h, keyOffsetB])
  have hb : toBits (split k).b = slice k keyOffsetB keyOffsetC :=
    toBits_ofBits (by simp [length_slice, h, keyOffsetB, keyOffsetC])
  have hc : toBits (split k).c = slice k keyOffsetC Config.keyLen :=
    toBits_ofBits (by simp [length_slice, h, keyOffsetC, Config.keyLen])
  calc joinRegs (split k)
      = slice k 0 keyOffsetB ++ slice k keyOffsetB keyOffsetC ++ slice k keyOffsetC Config.keyLen := by
        rw [joinRegs, ha, hb, hc]
    _ = slice k 0 Config.keyLen := by
        rw [slice_append_slice k (by decide) (by decide), slice_append_slice k (by decide) (by decide)]
    _ = k := by simp [slice, Config.keyLen, ← h]

theorem length_joinRegs (r : Regs) : (joinRegs r).length = 64 := by simp [joinRegs]

theorem split_joinRegs (r : Regs) : split (joinRegs r) = r := by
  rw [joinRegs, split_append (length_toBits _) (length_toBits _) (length_toBits _)]
  simp only [ofBits_toBits]

/-- Settles O21: each direction of the key map undoes the other. -/
theorem initialVectorsJoinToTheKey : Obligations.InitialVectorsJoinToTheKey :=
  ⟨fun _ => joinRegs_split, fun r => ⟨length_joinRegs r, split_joinRegs r⟩⟩

end Sys2Proof.Machine
end

section
/-! PROOFS. The key map by element (R51), and the step as the execution of the presented command (R57, R80). -/

namespace Sys2Proof.Machine

/-- A register filled from a part of the key holds key bit `j` at its distance from the part's start (R51). -/
theorem getElem?_eq_getLsbD_ofBits_slice {k : Bits} {n lo hi j : Nat} (hn : n = hi - lo) (hlo : lo ≤ j)
    (hhi : j < hi) (hj : j < k.length) : k[j]? = some ((ofBits n (slice k lo hi)).getLsbD (j - lo)) := by
  have hpart : j - lo < hi - lo := Nat.sub_lt_sub_right hlo hhi
  rw [getLsbD_ofBits, getD_slice k lo hi _ hpart, Nat.add_sub_cancel' hlo]
  simp [hn, hpart, hj]

/-- Settles O20: each register is filled from its own part of the key. -/
theorem splitFollowsTheKeyMap : Obligations.SplitFollowsTheKeyMap := by
  intro k hk
  refine ⟨fun j hj => ?_, fun j hlo hhi => ?_, fun j hlo hhi => ?_⟩
  · exact getElem?_eq_getLsbD_ofBits_slice (lo := 0) rfl j.zero_le (Nat.lt_succ_of_le hj) (by omega)
  · exact getElem?_eq_getLsbD_ofBits_slice rfl hlo (Nat.lt_succ_of_le hhi) (by omega)
  · exact getElem?_eq_getLsbD_ofBits_slice rfl hlo (Nat.lt_succ_of_le hhi) (by omega)

/-- Settles O7: the law of a step that takes a packet with a legal header. -/
theorem stepRunsTheDecodedCommand : Obligations.StepRunsTheDecodedCommand := fun _ _ _ _ => step_command

end Sys2Proof.Machine
end

section
/-! PROOFS. The decoder and the encoder undo each other (R71, R73, R80), and what a header says (R75). -/

namespace Sys2Proof

theorem decodeZ_eq_command_iff {n : Nat} {i j : Instr} : decodeZ n i = .command j ↔ n = 0 ∧ i = j := by
  by_cases hn : n = 0 <;> simp [decodeZ, hn]

/-- A header decodes to a command exactly when its three fields are those of the command (R80). -/
theorem decode_eq_command_iff {h : Header} {i : Instr} :
    decode h = .command i ↔ rsvField h = 0#5 ∧ opField h = opcode i ∧ lenField h = lenOperand i := by
  constructor
  · intro hd
    rw [decode] at hd
    split at hd
    next => cases hd
    next hrsv =>
      refine ⟨not_not.mp hrsv, ?_⟩
      rw [← BitVec.toNat_inj]
      split at hd
      case h_1 hop | h_4 hop | h_5 hop | h_6 hop =>
        cases hd
        exact ⟨hop, rfl⟩
      case h_2 hop | h_3 hop =>
        obtain ⟨hlen, rfl⟩ := decodeZ_eq_command_iff.mp hd
        exact ⟨hop, hlen⟩
      case h_7 => cases hd
  · rintro ⟨hrsv, hop, hlen⟩
    cases i <;> simp [decode, decodeZ, hrsv, hop, hlen, opcode, lenOperand]

/-- A header is Illegal exactly when it decodes to no command. -/
theorem decode_illegal_iff {h : Header} : (∃ w, decode h = .illegal w) ↔ ∀ i, decode h ≠ .command i := by
  cases decode h <;> simp

theorem wellFormed_iff {i : Instr} : WellFormed i = true ↔ lenOperand i ≤ Config.maxLen := by
  cases i <;> simp [WellFormed, fitsLen, lenOperand]

theorem lenField_le_maxLen (h : Header) : lenField h ≤ Config.maxLen :=
  Nat.le_of_lt_succ (h.extractLsb' 0 24).isLt

/-- Two headers with a zero reserved field are equal when OP and LEN agree (R71). -/
theorem header_eq_of_fields {h k : Header} (hr : rsvField h = 0#5) (kr : rsvField k = 0#5)
    (hop : opField h = opField k) (hlen : lenField h = lenField k) : h = k := by
  rw [← BitVec.toNat_inj, opField_toNat, opField_toNat] at hop
  rw [rsvField_eq_zero_iff] at hr kr
  rw [lenField_eq_mod, lenField_eq_mod] at hlen
  apply BitVec.eq_of_toNat_eq
  omega

/-- Settles O4: the fields of a command's header are what the decoder looks for. -/
theorem decodeOfEncodeIsTheCommand : Obligations.DecodeOfEncodeIsTheCommand := by
  intro i hwf
  obtain ⟨hop, hrsv, hlen⟩ := Laws.headerFields_of i wellFormed_iff.mp
  exact decode_eq_command_iff.mpr ⟨hrsv, hop, hlen hwf⟩

/-- Settles O5: LEN always fits, and a header is determined by its fields. -/
theorem eachCommandHasOneHeader : Obligations.EachCommandHasOneHeader := by
  intro h i hd
  obtain ⟨hrsv, hop, hlen⟩ := decode_eq_command_iff.mp hd
  have hwf : WellFormed i = true := wellFormed_iff.mpr (hlen ▸ lenField_le_maxLen h)
  obtain ⟨eop, ersv, elen⟩ := Laws.headerFields_of i wellFormed_iff.mp
  exact ⟨hwf, header_eq_of_fields ersv hrsv (eop.trans hop.symm) ((elen hwf).trans hlen.symm)⟩

/-- Decoding to a well-formed command and being its header are the same (R79, R80). -/
theorem decode_eq_command_iff_eq_encode {h : Header} {i : Instr} (hwf : WellFormed i = true) :
    decode h = .command i ↔ h = encode i :=
  ⟨fun hd => (eachCommandHasOneHeader h i hd).2.symm, fun he => he ▸ decodeOfEncodeIsTheCommand i hwf⟩

/-- Settles O2: the fields as integers, for each command; a header is Illegal when none of the six fits. -/
theorem decodeFollowsTheRule : Obligations.DecodeFollowsTheRule := by
  intro h
  have hcmd (i : Instr) : decode h = .command i ↔
      h.toNat / 2 ^ 24 % 32 = 0 ∧ h.toNat / 2 ^ 29 = (opcode i).toNat ∧ h.toNat % 2 ^ 24 = lenOperand i := by
    rw [decode_eq_command_iff, rsvField_eq_zero_iff, ← BitVec.toNat_inj, opField_toNat, lenField_eq_mod]
  refine ⟨fun i => ?_, ?_⟩
  · rw [hcmd]
    cases i <;> simp [opcode, lenOperand, eq_comm]
  · have hlt := h.isLt
    rw [decode_illegal_iff]
    constructor
    · intro hno
      have hloadkey := hno (.loadkey (h.toNat % 2 ^ 24))
      have hreset := hno .reset
      have hstep := hno .step
      have hgenks := hno (.genks (h.toNat % 2 ^ 24))
      have hencrypt := hno (.encrypt (h.toNat % 2 ^ 24))
      have hdecrypt := hno (.decrypt (h.toNat % 2 ^ 24))
      simp only [ne_eq, hcmd, opcode, lenOperand, BitVec.toNat_ofNat, and_true]
        at hloadkey hreset hstep hgenks hencrypt hdecrypt
      omega
    · intro hbad i hd
      rw [hcmd] at hd
      cases i <;> simp only [opcode, lenOperand, BitVec.toNat_ofNat] at hd <;> omega

/-- The mask of a format N or P row keeps OP and RSV and clears LEN, so the row's match, the header of the command
with count 0, selects the command with any count (R73). -/
theorem and_mask_eq_encode_iff {h : Header} {mk : Nat → Instr} (hop : ∀ n, opcode (mk n) = opcode (mk 0))
    (hlen : ∀ n, lenOperand (mk n) = n) :
    h &&& 0xFF000000#32 = encode (mk 0) ↔ ∃ n, decode h = .command (mk n) := by
  have mop : opField (h &&& 0xFF000000#32) = opField h := by
    rw [opField, BitVec.extractLsb'_and]
    exact BitVec.and_allOnes
  have mrsv : rsvField (h &&& 0xFF000000#32) = rsvField h := by
    rw [rsvField, BitVec.extractLsb'_and]
    exact BitVec.and_allOnes
  have mlen : lenField (h &&& 0xFF000000#32) = 0 := by
    rw [lenField, BitVec.extractLsb'_and]
    exact congrArg BitVec.toNat BitVec.and_zero
  have hwf : WellFormed (mk 0) = true := wellFormed_iff.mpr ((hlen 0).trans_le (Nat.zero_le _))
  rw [← decode_eq_command_iff_eq_encode hwf]
  simp [decode_eq_command_iff, hop, hlen, mop, mrsv, mlen]

/-- The mask of a format Z row keeps the whole header, so the row's match is the one header of its command (R73). -/
theorem and_full_mask_eq_encode_iff {h : Header} {i : Instr} (hwf : WellFormed i = true) :
    h &&& 0xFFFFFFFF#32 = encode i ↔ decode h = .command i := by
  rw [decode_eq_command_iff_eq_encode hwf]
  exact Iff.of_eq (congrArg (· = encode i) BitVec.and_allOnes)

/-- Settles O3: a row of format N or P is a test of OP and RSV, a row of format Z one of the whole header. -/
theorem matchAndMaskSelectTheRow : Obligations.MatchAndMaskSelectTheRow := by
  intro h
  refine ⟨?_, and_full_mask_eq_encode_iff (i := .reset) rfl, and_full_mask_eq_encode_iff (i := .step) rfl,
    ?_, ?_, ?_⟩
  · exact and_mask_eq_encode_iff (mk := .loadkey) (fun _ => rfl) fun _ => rfl
  · exact and_mask_eq_encode_iff (mk := .genks) (fun _ => rfl) fun _ => rfl
  · exact and_mask_eq_encode_iff (mk := .encrypt) (fun _ => rfl) fun _ => rfl
  · exact and_mask_eq_encode_iff (mk := .decrypt) (fun _ => rfl) fun _ => rfl

/-- Settles O1: each listed header is decoded. -/
theorem listedHeadersDecodeAsTheSpecSays : Obligations.ListedHeadersDecodeAsTheSpecSays := by
  unfold Obligations.ListedHeadersDecodeAsTheSpecSays
  decide

theorem headerPayloadLen_of_command {h : Header} {i : Instr} (hd : decode h = .command i) :
    headerPayloadLen h = payloadLen i := by simp [headerPayloadLen, hd]

theorem headerPayloadLen_of_illegal {h : Header} {w : Illegal} (hd : decode h = .illegal w) :
    headerPayloadLen h = 0 := by simp [headerPayloadLen, hd]

/-- Settles O6: the payload length of the decoded command. -/
theorem payloadLengthIsKnownFromTheHeader : Obligations.PayloadLengthIsKnownFromTheHeader := by
  intro h
  refine ⟨fun _ => headerPayloadLen_of_command, fun _ => headerPayloadLen_of_command,
    fun _ => headerPayloadLen_of_command, ?_⟩
  rintro (hd | hd | ⟨n, hd⟩ | ⟨w, hd⟩)
  · exact headerPayloadLen_of_command hd
  · exact headerPayloadLen_of_command hd
  · exact headerPayloadLen_of_command hd
  · exact headerPayloadLen_of_illegal hd

end Sys2Proof
end

section
/-! PROOFS. What the engine answers a packet with its payload, as one function of the engine and the packet (R81). -/

namespace Sys2Proof.Machine

/-- The engine a command leaves, and its response. -/
abbrev Answer := Engine × Response

/-- Check 3 of R178: the answer of a command that needs the key. -/
def Engine.ifKey (e : Engine) (a : Answer) : Answer := if e.kv then a else (e, ⟨.noKey, []⟩)

/-- The answer to a command whose payload is `p` (40_key_and_reset.md, 41_clocking_step.md, 42_bulk_stream.md). -/
def Engine.answer (e : Engine) (p : Bits) : Instr → Answer
  | .loadkey len =>
    if len = Config.keyLen then (e.loadKey (split p), ⟨.ok, []⟩) else (e, ⟨.invalidKeyLength, []⟩)
  | .reset => e.ifKey (e.restart, ⟨.ok, []⟩)
  | .step => e.ifKey (e.setRegs (stepF e.cur).1, ⟨.ok, [(stepF e.cur).2]⟩)
  | .genks n => e.ifKey (e.setRegs (genF e.cur n).1, ⟨.ok, (genF e.cur n).2⟩)
  | .encrypt _ | .decrypt _ => e.ifKey (e.setRegs (cryptF e.iv p).1, ⟨.ok, (cryptF e.iv p).2⟩)

/-- The answer to a packet of header `h` and payload `p`, whose surplus bits are dropped (R80, R174, R205). -/
def Engine.answerPacket (e : Engine) (h : Header) (p : Bits) : Answer :=
  match decode h with
  | .command i => e.answer (p.take (payloadLen i)) i
  | .illegal _ => (e, ⟨.illegalCommand, []⟩)

/-- The machine after an answer: its engine is in place and its response delivered. -/
def State.deliver (s : State) (a : Answer) : State := (s.setEngine a.1).respond a.2.status a.2.bits

theorem Engine.ifKey_of_key {e : Engine} (h : e.kv = true) (a : Answer) : e.ifKey a = a := if_pos h
theorem Engine.ifKey_of_noKey {e : Engine} (h : e.kv = false) (a : Answer) : e.ifKey a = (e, ⟨.noKey, []⟩) :=
  if_neg (by simp [h])

theorem withKey_eq_ifKey {s t : State} {a : Answer} (h : t = s.deliver a) :
    withKey s t = .next (s.deliver (s.engine.ifKey a)) := by
  subst h
  cases hkv : s.engine.kv
  · rw [withKey_of_noKey hkv, Engine.ifKey_of_noKey hkv]
    rfl
  · rw [withKey_of_key hkv, Engine.ifKey_of_key hkv]

/-- A command with its payload delivers its answer. -/
theorem exec_eq_answer {i : Instr} {s : State} (h : payloadLen i ≤ s.din.length) :
    exec i s = .next (s.deliver (s.engine.answer (s.din.take (payloadLen i)) i)) := by
  cases i with
  | loadkey len =>
    refine (withPayload_of_le h).trans ?_
    by_cases hl : len = Config.keyLen
    · rw [if_neg (not_not.mpr hl), Engine.answer, if_pos hl]
      rfl
    · rw [if_pos hl, Engine.answer, if_neg hl]
      rfl
  | reset | step | genks => exact withKey_eq_ifKey rfl
  | encrypt | decrypt => exact (withPayload_of_le h).trans (withKey_eq_ifKey rfl)

theorem Engine.answerPacket_of_command {h : Header} {i : Instr} (hd : decode h = .command i) (e : Engine) (p : Bits) :
    e.answerPacket h p = e.answer (p.take (payloadLen i)) i := by simp [answerPacket, hd]

theorem Engine.answerPacket_of_illegal {h : Header} {w : Illegal} (hd : decode h = .illegal w) (e : Engine)
    (p : Bits) : e.answerPacket h p = (e, ⟨.illegalCommand, []⟩) := by simp [answerPacket, hd]

/-- The step that takes a packet with its payload delivers the answer to it (R57, R81). -/
theorem step_eq_answerPacket {s : State} {p : Packet} {rest : List Input} (hin : s.input = .packet p :: rest)
    (hp : p.Complete) :
    step s = .next (State.deliver { s with input := rest } (s.engine.answerPacket p.header p.payload)) := by
  cases hd : decode p.header with
  | command i =>
    rw [Packet.Complete, headerPayloadLen_of_command hd] at hp
    rw [step_command hin hd, Engine.answerPacket_of_command hd]
    exact exec_eq_answer hp
  | illegal w =>
    rw [step_packet hin, acceptPacket_of_illegal hd, Engine.answerPacket_of_illegal hd]
    rfl

@[simp] theorem length_genF (r : Regs) (n : Nat) : (genF r n).2.length = n := by
  induction n generalizing r with
  | zero => rfl
  | succ n ih => simp [genF_succ, ih]

@[simp] theorem length_cryptF (iv : Regs) (p : Bits) : (cryptF iv p).2.length = p.length := by
  simp [cryptF, xorBits]

/-- A response keeps R81: an error has no bits, OK has `n` of them, and InvalidInputFormat is never answered (R175). -/
def Response.KeepsRule (r : Response) (n : Nat) : Prop :=
  r.status ≠ .invalidInputFormat ∧ (r.status ≠ .ok → r.bits = []) ∧ (r.status = .ok → r.bits.length = n)

theorem Response.keepsRule_ok (bits : Bits) : (⟨.ok, bits⟩ : Response).KeepsRule bits.length :=
  ⟨by simp, by simp, fun _ => rfl⟩

theorem Response.keepsRule_error {st : Status} (h : st ≠ .invalidInputFormat) (hok : st ≠ .ok) (n : Nat) :
    (⟨st, []⟩ : Response).KeepsRule n := ⟨h, fun _ => rfl, fun h => absurd h hok⟩

theorem Engine.ifKey_keepsRule (e : Engine) {a : Answer} {n : Nat} (h : a.2.KeepsRule n) :
    (e.ifKey a).2.KeepsRule n := by
  cases hkv : e.kv
  · rw [ifKey_of_noKey hkv]
    exact Response.keepsRule_error (by simp) (by simp) n
  · rwa [ifKey_of_key hkv]

/-- Every command's response keeps R81. -/
theorem Engine.answer_keepsRule (e : Engine) {p : Bits} {i : Instr} (hp : p.length = payloadLen i) :
    (e.answer p i).2.KeepsRule (okBits i) := by
  cases i with
  | loadkey len =>
    rw [answer]
    split
    · exact Response.keepsRule_ok []
    · exact Response.keepsRule_error (by simp) (by simp) _
  | reset | step => exact e.ifKey_keepsRule (Response.keepsRule_ok _)
  | genks n =>
    refine e.ifKey_keepsRule ?_
    simpa [okBits] using Response.keepsRule_ok (genF e.cur n).2
  | encrypt len | decrypt len =>
    refine e.ifKey_keepsRule ?_
    have hlen : p.length = len := hp
    simpa [hlen, okBits] using Response.keepsRule_ok (cryptF e.iv p).2

/-- Settles O15: the step delivers the answer to the packet, and a command's answer keeps R81. -/
theorem everyPacketGetsOneResponse : Obligations.EveryPacketGetsOneResponse := by
  intro s p rest hin hp
  refine ⟨_, (s.engine.answerPacket p.header p.payload).2, step_eq_answerPacket hin hp, rfl, ?_⟩
  cases hd : decode p.header with
  | command i =>
    rw [Packet.Complete, headerPayloadLen_of_command hd] at hp
    rw [Engine.answerPacket_of_command hd]
    obtain ⟨hfmt, herr, hok⟩ := s.engine.answer_keepsRule (List.length_take_of_le hp)
    exact ⟨hfmt, herr, fun h => ⟨i, rfl, hok h⟩⟩
  | illegal w =>
    rw [Engine.answerPacket_of_illegal hd]
    exact ⟨by simp, fun _ => rfl, by simp⟩

end Sys2Proof.Machine
end

section
/-! PROOFS. The commands of GENKSL, one after another, make one keystream (R83, R152). -/

namespace Sys2Proof.Machine

theorem sum_genkslCounts (n : Nat) : (genkslCounts n).sum = n := by
  have hdiv : n / Config.maxLen * Config.maxLen + n % Config.maxLen = n := Nat.div_add_mod' n Config.maxLen
  by_cases hn : n = 0
  · simp [genkslCounts, hn]
  · by_cases hr : n % Config.maxLen = 0 <;> simpa [genkslCounts, hn, hr] using hdiv

/-- Every count of the expansion fits LEN (R74). -/
theorem genkslCounts_le_maxLen {n k : Nat} (hk : k ∈ genkslCounts n) : k ≤ Config.maxLen := by
  rw [genkslCounts] at hk
  split at hk
  · rw [List.mem_singleton.mp hk]
    exact Nat.zero_le _
  · obtain hk | hk := List.mem_append.mp hk
    · exact (List.eq_of_mem_replicate hk).le
    · split at hk
      · cases hk
      · rw [List.mem_singleton.mp hk]
        exact (Nat.mod_lt n (by decide)).le

theorem execAll_cons {s t : State} {i : Instr} {p : Bits} (rest : List (Instr × Bits))
    (h : exec i { s with din := p } = .next t) : execAll s ((i, p) :: rest) = execAll t rest := by
  simp [execAll, h]

/-- GENKS with a key (R151). -/
theorem exec_genks_of_key {n : Nat} {s : State} (h : s.engine.kv = true) :
    exec (.genks n) s = .next (s.generate n) := withKey_of_key h

@[simp] theorem Engine.setRegs_setRegs (e : Engine) (r r' : Regs) : (e.setRegs r).setRegs r' = e.setRegs r' := rfl

/-- GENKS commands in a row generate the keystream of the sum of their counts (R152). -/
theorem execAll_genks (ks : List Nat) (s : State) (hkv : s.engine.kv = true) :
    ∃ u rs, execAll s (ks.map fun k => (.genks k, [])) = .next u ∧
      u.engine = s.engine.setRegs (genF s.engine.cur ks.sum).1 ∧
      u.delivered = s.delivered ++ rs ∧ (∀ r ∈ rs, r.status = .ok) ∧
      (rs.map Response.bits).flatten = (genF s.engine.cur ks.sum).2 := by
  induction ks generalizing s with
  | nil => exact ⟨s, [], rfl, rfl, by simp, by simp, rfl⟩
  | cons k ks ih =>
    obtain ⟨u, rs, hrun, heng, hdel, hok, hbits⟩ := ih (State.generate { s with din := [] } k) hkv
    refine ⟨u, ⟨.ok, (genF s.engine.cur k).2⟩ :: rs, ?_, ?_, ?_, ?_, ?_⟩
    · exact (execAll_cons _ (exec_genks_of_key hkv)).trans hrun
    · simpa [genF_add] using heng
    · simpa using hdel
    · simpa using hok
    · simpa [genF_add] using hbits

/-- Settles O54: the expansion adds up to the count, so its commands run as one. -/
theorem genkslIsTheKeystreamOfItsCount : Obligations.GenkslIsTheKeystreamOfItsCount := by
  intro n s hkv
  refine ⟨sum_genkslCounts n, fun k hk => wellFormed_iff.mpr (genkslCounts_le_maxLen hk), ?_⟩
  have hrun := execAll_genks (genkslCounts n) s hkv
  rwa [sum_genkslCounts] at hrun

end Sys2Proof.Machine
end

section
/-! PROOFS. The ports carry the atomic commands: from every phase, the beats left and the payload bits still to come
give what the command answers (R86, R205, R213). -/

namespace Sys2Proof.Machine

/-- The edges after the one that takes the header: on each a payload bit or nothing (R205). -/
def payloadEdges (ds : List (Option Bit)) : List PortsIn := ds.map fun d => ⟨true, none, d⟩

/-- The cycle `q` and those after the edges of the schedule `ds`. -/
def cyclesFrom (q : PortState) (ds : List (Option Bit)) : List PortsOut := ports true q :: observe q (payloadEdges ds)

/-- The response bit that the cycle `q` shows, if any (R213). -/
def PortState.bitShown (q : PortState) : Bits := (q.held.map (· ^^ outBit q.engine.cur)).toList

@[simp] theorem PortState.bitShown_quiet (q : PortState) (e : Engine) (ph : Phase) : (q.quiet e ph).bitShown = [] := rfl
@[simp] theorem PortState.bitShown_finish (q : PortState) (e : Engine) (st : Status) :
    (q.finish e st).bitShown = [] := rfl
@[simp] theorem PortState.bitShown_emit (q : PortState) (e : Engine) (x : Bit) (ph : Phase) :
    (q.emit e x ph).bitShown = [x ^^ outBit e.cur] := rfl

theorem bitsOf_ports_cons (q : PortState) (os : List PortsOut) :
    bitsOf (ports true q :: os) = q.bitShown ++ bitsOf os := by
  cases hq : q.held <;> simp [bitsOf, ports, PortState.bitShown, hq]

theorem statusesOf_ports_cons (q : PortState) (os : List PortsOut) :
    statusesOf (ports true q :: os) = q.rsp.toList ++ statusesOf os := by
  cases hq : q.rsp <;> simp [statusesOf, ports, hq]

/-- The first edge of a schedule is a beat, after which the cycles go on. -/
theorem cyclesFrom_cons (q : PortState) (d : Option Bit) (ds : List (Option Bit)) :
    cyclesFrom q (d :: ds) = ports true q :: cyclesFrom (beat q ⟨true, none, d⟩) ds := by
  simp [cyclesFrom, payloadEdges, observe, edge]

/-- From the cycle `q` on, over the schedule `ds`, the host receives these bits and these statuses, and the engine `e`
is left idle. -/
structure Yields (q : PortState) (ds : List (Option Bit)) (e : Engine) (bits : Bits) (sts : List Status) : Prop where
  phase : (runEdges q (payloadEdges ds)).phase = .idle
  engine : (runEdges q (payloadEdges ds)).engine = e
  bits : bitsOf (cyclesFrom q ds) = bits
  statuses : statusesOf (cyclesFrom q ds) = sts

/-- What the cycle `q` shows comes before what the cycles from the next beat on yield. -/
theorem Yields.cons {q : PortState} {d : Option Bit} {ds : List (Option Bit)} {e : Engine} {bits : Bits}
    {sts : List Status} (h : Yields (beat q ⟨true, none, d⟩) ds e bits sts) :
    Yields q (d :: ds) e (q.bitShown ++ bits) (q.rsp.toList ++ sts) where
  phase := h.phase
  engine := h.engine
  bits := by rw [cyclesFrom_cons, bitsOf_ports_cons, h.bits]
  statuses := by rw [cyclesFrom_cons, statusesOf_ports_cons, h.statuses]

/-- A busy cycle shows no status, and only what is left of the command comes after it. -/
theorem Yields.cons_busy {q q' : PortState} {d : Option Bit} {ds : List (Option Bit)} {e : Engine} {bits : Bits}
    {sts : List Status} (hrsp : q.rsp = none) (hbeat : beat q ⟨true, none, d⟩ = q') (h : Yields q' ds e bits sts) :
    Yields q (d :: ds) e (q.bitShown ++ bits) sts := by
  subst hbeat
  simpa [hrsp] using h.cons

/-- An idle engine shows its own cycle and then nothing, and stays as it is (R79). -/
theorem Yields.of_idle {q : PortState} (hq : q.phase = .idle) (ds : List (Option Bit)) :
    Yields q ds q.engine q.bitShown q.rsp.toList := by
  induction ds generalizing q with
  | nil =>
    refine ⟨hq, rfl, ?_, ?_⟩
    · exact (bitsOf_ports_cons q []).trans (List.append_nil _)
    · exact (statusesOf_ports_cons q []).trans (List.append_nil _)
  | cons d ds ih =>
    have hbeat : beat q ⟨true, none, d⟩ = q.quiet q.engine .idle := beat_idle hq rfl
    have hrest : Yields (beat q ⟨true, none, d⟩) ds q.engine [] [] := hbeat ▸ ih rfl
    simpa using hrest.cons

/-- `q` is the cycle after a beat that leaves `n` beats in the phases `next`; with none left it shows `st`. -/
structure PortState.BeatsLeft (q : PortState) (next : Nat → Phase) (st : Status) (n : Nat) : Prop where
  phase : q.phase = afterBeat next n
  rsp : q.rsp = if n = 0 then some st else none

theorem PortState.begin_beatsLeft (p : PortState) (e : Engine) (st : Status) (next : Nat → Phase) (n : Nat) :
    (p.begin e st next n).BeatsLeft next st n := by
  cases n <;> exact ⟨rfl, rfl⟩

theorem PortState.emit_beatsLeft (p : PortState) (e : Engine) (x : Bit) {next : Nat → Phase}
    (h : ∀ n, (next n).cmdReady = false) (n : Nat) : (p.emit e x (afterBeat next n)).BeatsLeft next .ok n := by
  cases n with
  | zero => exact ⟨rfl, rfl⟩
  | succ n => exact ⟨rfl, by simp [h]⟩

theorem PortState.quiet_beatsLeft (p : PortState) (e : Engine) (st : Status) (next : Nat → Phase) (n : Nat) :
    (p.quiet e (next n)).BeatsLeft next st (n + 1) := ⟨rfl, rfl⟩

theorem PortState.begin_engine (p : PortState) (e : Engine) (st : Status) (next : Nat → Phase) (n : Nat) :
    (p.begin e st next n).engine = e := by cases n <;> rfl

theorem PortState.begin_bitShown (p : PortState) (e : Engine) (st : Status) (next : Nat → Phase) (n : Nat) :
    (p.begin e st next n).bitShown = [] := by cases n <;> rfl

@[simp] theorem Engine.setRegs_cur_self (e : Engine) : e.setRegs e.cur = e := rfl
@[simp] theorem Engine.setRegs_advance (e : Engine) (r : Regs) : e.advance.setRegs r = e.setRegs r := rfl

/-- A command with no beat left is over. -/
theorem Yields.of_noBeatsLeft {q : PortState} {next : Nat → Phase} {st : Status} (h : q.BeatsLeft next st 0)
    (ds : List (Option Bit)) : Yields q ds q.engine q.bitShown [st] := by
  have hrsp : q.rsp = some st := h.rsp
  simpa [hrsp] using Yields.of_idle h.phase ds

/-- The schedule presents the payload bits `bs`, with pauses before a bit and anything after the last. -/
inductive Supplies : List (Option Bit) → Bits → Prop
  | done (ds : List (Option Bit)) : Supplies ds []
  | wait {ds : List (Option Bit)} {x : Bit} {bs : Bits} : Supplies ds (x :: bs) → Supplies (none :: ds) (x :: bs)
  | take {ds : List (Option Bit)} {x : Bit} {bs : Bits} : Supplies ds bs → Supplies (some x :: ds) (x :: bs)

theorem supplies_of_isPrefix {ds : List (Option Bit)} {bs : Bits} (h : bs <+: presentedBits ds) : Supplies ds bs := by
  induction ds generalizing bs with
  | nil =>
    obtain rfl := List.prefix_nil.mp h
    exact .done []
  | cons d ds ih =>
    cases bs with
    | nil => exact .done _
    | cons x bs =>
      cases d with
      | none => exact .wait (ih h)
      | some y =>
        obtain ⟨rfl, hbs⟩ := List.cons_prefix_cons.mp h
        exact .take (ih hbs)

theorem drainBeat_eq_begin (p : PortState) (st : Status) (n : Nat) :
    drainBeat p st n = p.begin p.engine st (.draining · st) n := by
  cases n <;> rfl

/-- A failing command discards its payload and shows its status (R75). -/
theorem Yields.of_draining {q : PortState} {ds : List (Option Bit)} {bs : Bits} {st : Status}
    (hs : Supplies ds bs) (h : q.BeatsLeft (.draining · st) st bs.length) : Yields q ds q.engine q.bitShown [st] := by
  induction hs generalizing q with
  | done ds => exact .of_noBeatsLeft h ds
  | @wait ds x bs _ ih =>
    have hbeat : beat q ⟨true, none, none⟩ = q.quiet q.engine (.draining bs.length st) := by
      simp [beat, h.phase]
    have hrest := ih (q.quiet_beatsLeft q.engine st (.draining · st) bs.length)
    simpa using Yields.cons_busy h.rsp hbeat hrest
  | @take ds x bs _ ih =>
    have hbeat : beat q ⟨true, none, some x⟩ = q.begin q.engine st (.draining · st) bs.length := by
      simp [beat, h.phase, drainBeat_eq_begin]
    have hrest := ih (q.begin_beatsLeft q.engine st (.draining · st) bs.length)
    rw [q.begin_engine, q.begin_bitShown] at hrest
    simpa using Yields.cons_busy h.rsp hbeat hrest

/-- ENCRYPT and DECRYPT: each payload bit that arrives takes a step and gives a response bit (R154, R213). -/
theorem Yields.of_crypting {q : PortState} {ds : List (Option Bit)} {bs : Bits} (hs : Supplies ds bs)
    (h : q.BeatsLeft .crypting .ok bs.length) :
    Yields q ds (q.engine.setRegs (cryptF q.engine.cur bs).1) (q.bitShown ++ (cryptF q.engine.cur bs).2) [.ok] := by
  induction hs generalizing q with
  | done ds => simpa [cryptF, xorBits] using Yields.of_noBeatsLeft h ds
  | @wait ds x bs _ ih =>
    have hbeat : beat q ⟨true, none, none⟩ = q.quiet q.engine (.crypting bs.length) := by
      simp [beat, h.phase]
    have hrest := ih (q.quiet_beatsLeft q.engine .ok .crypting bs.length)
    exact Yields.cons_busy h.rsp hbeat hrest
  | @take ds x bs _ ih =>
    have hbeat : beat q ⟨true, none, some x⟩ = q.emit q.engine.advance x (afterBeat .crypting bs.length) := by
      simp [beat, h.phase]
    have hrest := ih (q.emit_beatsLeft q.engine.advance x (fun _ => rfl) bs.length)
    exact Yields.cons_busy h.rsp hbeat hrest

/-- STEP and GENKS: each edge takes a step and gives its output bit (R150, R213). -/
theorem Yields.of_stepping {q : PortState} {ds : List (Option Bit)} {n : Nat} (hn : n ≤ ds.length)
    (h : q.BeatsLeft .stepping .ok n) :
    Yields q ds (q.engine.setRegs (genF q.engine.cur n).1) (q.bitShown ++ (genF q.engine.cur n).2) [.ok] := by
  induction n generalizing q ds with
  | zero => simpa using Yields.of_noBeatsLeft h ds
  | succ n ih =>
    cases ds with
    | nil => simp at hn
    | cons d ds =>
      have hbeat : beat q ⟨true, none, d⟩ = q.emit q.engine.advance false (afterBeat .stepping n) := by
        simp [beat, h.phase]
      have hrest := ih (Nat.le_of_succ_le_succ hn) (q.emit_beatsLeft q.engine.advance false (fun _ => rfl) n)
      simpa [genF_succ] using Yields.cons_busy h.rsp hbeat hrest

/-- A LOADKEY of 64 bits collects the key and installs it with the last bit (R100, R213; log 11). -/
theorem Yields.of_keying {q : PortState} {ds : List (Option Bit)} {bs taken : Bits} {more : Nat}
    (hs : Supplies ds bs) (hlen : bs.length = more + 1) (hph : q.phase = .keying taken more) (hrsp : q.rsp = none) :
    Yields q ds (q.engine.loadKey (split (taken ++ bs))) q.bitShown [.ok] := by
  induction hs generalizing q taken more with
  | done ds => cases hlen
  | @wait ds x bs _ ih =>
    have hbeat : beat q ⟨true, none, none⟩ = q.quiet q.engine (.keying taken more) := by simp [beat, hph]
    have hrest := ih (q := q.quiet q.engine (.keying taken more)) hlen rfl rfl
    simpa using Yields.cons_busy hrsp hbeat hrest
  | @take ds x bs _ ih =>
    have hbs : bs.length = more := Nat.succ.inj hlen
    cases more with
    | zero =>
      obtain rfl := List.length_eq_zero_iff.mp hbs
      have hbeat : beat q ⟨true, none, some x⟩ = q.finish (q.engine.loadKey (split (taken ++ [x]))) .ok := by
        simp [beat, hph, keyBeat]
      have hrest := Yields.of_idle (q := q.finish (q.engine.loadKey (split (taken ++ [x]))) .ok) rfl ds
      simpa using Yields.cons_busy hrsp hbeat hrest
    | succ more =>
      have hbeat : beat q ⟨true, none, some x⟩ = q.quiet q.engine (.keying (taken ++ [x]) more) := by
        simp [beat, hph, keyBeat]
      have hrest := ih (q := q.quiet q.engine (.keying (taken ++ [x]) more)) hbs rfl rfl
      simpa using Yields.cons_busy hrsp hbeat hrest

/-- From the cycle `q` on, the schedule `ds` brings the answer `a`. -/
def PortState.Delivers (q : PortState) (ds : List (Option Bit)) (a : Answer) : Prop :=
  Yields q ds a.1 a.2.bits [a.2.status]

section Header
variable (p : PortState) {ds : List (Option Bit)} {bs : Bits} {n : Nat}

theorem PortState.finish_delivers (e : Engine) (st : Status) (ds : List (Option Bit)) :
    (p.finish e st).Delivers ds (e, ⟨st, []⟩) := Yields.of_idle rfl ds

theorem PortState.begin_draining_delivers (st : Status) (hs : Supplies ds bs) (hlen : bs.length = n) :
    (p.begin p.engine st (.draining · st) n).Delivers ds (p.engine, ⟨st, []⟩) := by
  subst hlen
  have h := Yields.of_draining hs (p.begin_beatsLeft p.engine st (.draining · st) bs.length)
  rwa [p.begin_engine, p.begin_bitShown] at h

theorem PortState.begin_crypting_delivers (e : Engine) (hs : Supplies ds bs) (hlen : bs.length = n) :
    (p.begin e .ok .crypting n).Delivers ds (e.setRegs (cryptF e.cur bs).1, ⟨.ok, (cryptF e.cur bs).2⟩) := by
  subst hlen
  have h := Yields.of_crypting hs (p.begin_beatsLeft e .ok .crypting bs.length)
  rwa [p.begin_engine, p.begin_bitShown] at h

theorem PortState.begin_stepping_delivers (e : Engine) (hn : n ≤ ds.length) :
    (p.begin e .ok .stepping n).Delivers ds (e.setRegs (genF e.cur n).1, ⟨.ok, (genF e.cur n).2⟩) := by
  have h := Yields.of_stepping hn (p.begin_beatsLeft e .ok .stepping n)
  rwa [p.begin_engine, p.begin_bitShown] at h

theorem PortState.begin_keying_delivers (hs : Supplies ds bs) (hlen : bs.length = Config.keyLen) :
    (p.begin p.engine .ok (.keying []) Config.keyLen).Delivers ds (p.engine.loadKey (split bs), ⟨.ok, []⟩) :=
  Yields.of_keying (q := p.quiet p.engine (.keying [] 63)) hs hlen rfl rfl

/-- The key test of a header beat is the key test of the answer (R172). -/
theorem PortState.ifKey_delivers {q q' : PortState} {a : Answer} (hkey : p.engine.kv = true → q.Delivers ds a)
    (hno : q'.Delivers ds (p.engine, ⟨.noKey, []⟩)) :
    (if p.engine.keyValid then q else q').Delivers ds (p.engine.ifKey a) := by
  cases hkv : p.engine.kv
  · simpa [hkv, Engine.ifKey_of_noKey hkv] using hno
  · simpa [hkv, Engine.ifKey_of_key hkv] using hkey hkv

/-- After the beat that takes a header, a schedule with the announced bits and enough edges brings the answer to the
packet (R86). -/
theorem acceptHeader_delivers (h : Header) (hbits : headerPayloadLen h ≤ (presentedBits ds).length)
    (hbeats : headerBeats p.engine.kv h ≤ ds.length) :
    (acceptHeader p h).Delivers ds (p.engine.answerPacket h (presentedBits ds)) := by
  cases hd : decode h with
  | illegal w =>
    rw [Engine.answerPacket_of_illegal hd, acceptHeader, hd]
    exact p.finish_delivers p.engine .illegalCommand ds
  | command i =>
    rw [headerPayloadLen_of_command hd] at hbits
    have hs : Supplies ds ((presentedBits ds).take (payloadLen i)) := supplies_of_isPrefix (List.take_prefix _ _)
    have hlen : ((presentedBits ds).take (payloadLen i)).length = payloadLen i := List.length_take_of_le hbits
    rw [headerBeats, hd] at hbeats
    rw [Engine.answerPacket_of_command hd, acceptHeader, hd]
    cases i with
    | loadkey len =>
      dsimp only [Engine.answer]
      split
      next h64 =>
        subst h64
        exact p.begin_keying_delivers hs hlen
      next => exact p.begin_draining_delivers .invalidKeyLength hs hlen
    | reset => exact p.ifKey_delivers (fun _ => p.finish_delivers _ .ok ds) (p.finish_delivers _ .noKey ds)
    | step =>
      refine p.ifKey_delivers (fun hkv => ?_) (p.finish_delivers _ .noKey ds)
      exact p.begin_stepping_delivers p.engine (n := 1) (by simpa [beatsAfterHeader, hkv] using hbeats)
    | genks n =>
      refine p.ifKey_delivers (fun hkv => ?_) (p.finish_delivers _ .noKey ds)
      exact p.begin_stepping_delivers p.engine (by simpa [beatsAfterHeader, hkv] using hbeats)
    | encrypt len | decrypt len =>
      exact p.ifKey_delivers (fun _ => p.begin_crypting_delivers p.engine.restart hs hlen)
        (p.begin_draining_delivers .noKey hs hlen)

end Header

/-- At idle the first edge of a driven packet takes the header. -/
theorem edge_header {p : PortState} (hp : p.phase = .idle) (h : Header) :
    edge p ⟨true, some h, none⟩ = acceptHeader p h := by simp [edge, beat, hp]

theorem observe_drive {p : PortState} (hp : p.phase = .idle) (h : Header) (ds : List (Option Bit)) :
    observe p (drive h ds) = cyclesFrom (acceptHeader p h) ds := by
  simp [drive, observe, cyclesFrom, payloadEdges, edge_header hp]

theorem runEdges_drive {p : PortState} (hp : p.phase = .idle) (h : Header) (ds : List (Option Bit)) :
    runEdges p (drive h ds) = runEdges (acceptHeader p h) (payloadEdges ds) := by
  simp [drive, runEdges, payloadEdges, edge_header hp]

/-- Settles O56: the step and the ports give the same answer to the packet. -/
theorem portsCarryTheAtomicCommands : Obligations.PortsCarryTheAtomicCommands := by
  intro p h ds s rest hp heng hin hbits hbeats
  obtain ⟨hph, hpe, hpb, hps⟩ := acceptHeader_delivers p h hbits hbeats
  refine ⟨_, (p.engine.answerPacket h (presentedBits ds)).2, step_eq_answerPacket hin hbits, ?_⟩
  rw [heng, observe_drive hp, runEdges_drive hp]
  exact ⟨rfl, hph, hpe, hpb, hps⟩

end Sys2Proof.Machine
end

section
/-! PROOFS. LOADKEY and RESET: what each leaves (R100 to R105), and that RESET always returns to the loaded state (R106). -/

namespace Sys2Proof.Machine

/-- A LOADKEY of another length with its payload present (R101, R102). -/
theorem exec_loadkey_of_other_length {len : Nat} {s : State} (hne : len ≠ 64) (h : len ≤ s.din.length) :
    exec (.loadkey len) s = .next (s.raiseError .invalidKeyLength) :=
  (withPayload_of_le h).trans (if_pos hne)

/-- RESET with a key (R104). -/
theorem exec_reset_of_key {s : State} (h : s.engine.kv = true) :
    exec .reset s = .next ((s.setEngine s.engine.restart).respond .ok []) := withKey_of_key h

/-- RESET without a key (R172). -/
theorem exec_reset_of_noKey {s : State} (h : s.engine.kv = false) :
    exec .reset s = .next (s.raiseError .noKey) := withKey_of_noKey h

/-- With a key, the registers stand at the initial vectors. -/
def Engine.AtStart (e : Engine) : Prop := e.kv = true → e.cur = e.iv

theorem Engine.restart_of_cur_eq_iv {e : Engine} (h : e.cur = e.iv) : e.restart = e := by
  obtain ⟨kv, iv, cur⟩ := e
  obtain rfl : cur = iv := h
  rfl

theorem exec_loadkey64_leaves_atStart {s t : State} (h : exec (.loadkey 64) s = .next t) : t.engine.AtStart := by
  intro _
  rw [exec_loadkey64_next h]

theorem exec_reset_leaves_atStart {s t : State} (h : exec .reset s = .next t) : t.engine.AtStart := by
  cases hkv : s.engine.kv
  · cases (exec_reset_of_noKey hkv).symm.trans h
    exact fun ht => absurd (hkv.symm.trans ht) Bool.false_ne_true
  · cases (exec_reset_of_key hkv).symm.trans h
    exact fun _ => rfl

/-- From the start of the keystream, and without a key, RESET leaves the engine alone (R105, R172). -/
theorem exec_reset_keeps_engine_atStart {s t : State} (hs : s.engine.AtStart) (h : exec .reset s = .next t) :
    t.engine = s.engine := by
  cases hkv : s.engine.kv
  · cases (exec_reset_of_noKey hkv).symm.trans h
    rfl
  · cases (exec_reset_of_key hkv).symm.trans h
    exact Engine.restart_of_cur_eq_iv (hs hkv)

/-- Where a row of commands goes on, its first command went on, and the rest from there. -/
theorem execAll_cons_next {s u : State} {i : Instr} {p : Bits} {rest : List (Instr × Bits)}
    (h : execAll s ((i, p) :: rest) = .next u) :
    ∃ t, exec i { s with din := p } = .next t ∧ execAll t rest = .next u := by
  cases hexec : exec i { s with din := p } with
  | next t => exact ⟨t, rfl, (execAll_cons rest hexec).symm.trans h⟩
  | fault f => simp [execAll, hexec] at h
  | refused r => simp [execAll, hexec] at h

/-- Commands with no LOADKEY of 64 bits among them write neither KV nor the initial vectors (R103). -/
theorem execAll_keeps_key {cs : List (Instr × Bits)} {s t : State} (hcs : ∀ c ∈ cs, c.1 ≠ .loadkey 64)
    (h : execAll s cs = .next t) : t.engine.kv = s.engine.kv ∧ t.engine.iv = s.engine.iv := by
  induction cs generalizing s with
  | nil =>
    cases h
    exact ⟨rfl, rfl⟩
  | cons c cs ih =>
    obtain ⟨hc, hcs⟩ := List.forall_mem_cons.mp hcs
    obtain ⟨r, hexec, hrest⟩ := execAll_cons_next h
    obtain ⟨hkv, hiv⟩ := ih hcs hrest
    obtain ⟨-, e, bits, rfl, -, hframe⟩ := exec_next_cases hexec
    obtain ⟨hkv', hiv'⟩ := hframe hc
    exact ⟨hkv.trans hkv', hiv.trans hiv'⟩

/-- Settles O23: a RESET and a LOADKEY both leave the registers at the initial vectors, where a RESET changes nothing. -/
theorem resetIsIdempotent : Obligations.ResetIsIdempotent :=
  ⟨fun _ _ _ hs ht => exec_reset_keeps_engine_atStart (exec_reset_leaves_atStart hs) ht,
    fun _ _ _ hs ht => exec_reset_keeps_engine_atStart (exec_loadkey64_leaves_atStart hs) ht⟩

/-- Settles O24: the commands in between keep KV and the initial vectors, and RESET makes the registers of those. -/
theorem resetAlwaysReturnsToTheLoadedState : Obligations.ResetAlwaysReturnsToTheLoadedState := by
  intro s t u v cs hload hcs hrun hreset
  have ht := exec_loadkey64_next hload
  obtain ⟨hkv, hiv⟩ := execAll_keeps_key hcs hrun
  rw [ht] at hkv hiv
  cases (exec_reset_of_key hkv).symm.trans hreset
  simp [Engine.restart, hkv, hiv, ht]

/-- Settles O18: LOADKEY where its two checks pass. -/
theorem loadkeyInstallsTheKey : Obligations.LoadkeyInstallsTheKey := fun _ => exec_loadkey64

/-- Settles O19: LOADKEY where its length check fails. -/
theorem loadkeyOfOtherLengthChangesNothing : Obligations.LoadkeyOfOtherLengthChangesNothing :=
  fun _ _ => exec_loadkey_of_other_length

/-- Settles O22: RESET where its key check passes. -/
theorem resetRestoresTheRegisters : Obligations.ResetRestoresTheRegisters := fun _ => exec_reset_of_key

end Sys2Proof.Machine
end

section
/-! PROOFS. One clocking step: the majority and the enables (R120 to R122), the feedback and the shift (R123, R124), and
the output bit (R126). -/

namespace Sys2Proof.Machine

theorem maj_eq_true_iff (x y z : Bit) : maj x y z = true ↔ 2 ≤ x.toNat + y.toNat + z.toNat := by
  revert x y z
  decide

theorem maj_swap_left (x y z : Bit) : maj x y z = maj y x z := by
  revert x y z
  decide

theorem maj_swap_right (x y z : Bit) : maj x y z = maj x z y := by
  revert x y z
  decide

/-- A bit fails to be the majority when it stands alone against the other two (R122). -/
theorem beq_maj_eq_false_iff (x y z : Bit) : (x == maj x y z) = false ↔ x ≠ y ∧ x ≠ z := by
  revert x y z
  decide

/-- At least two of three bits are the majority (R122). -/
theorem two_le_count_beq_maj (x y z : Bit) :
    2 ≤ (x == maj x y z).toNat + (y == maj x y z).toNat + (z == maj x y z).toNat := by
  revert x y z
  decide

theorem ckenA_eq_false_iff (r : Regs) :
    ckenA r = false ↔ clockBitA r ≠ clockBitB r ∧ clockBitA r ≠ clockBitC r :=
  beq_maj_eq_false_iff _ _ _

theorem ckenB_eq_false_iff (r : Regs) :
    ckenB r = false ↔ clockBitB r ≠ clockBitA r ∧ clockBitB r ≠ clockBitC r := by
  rw [ckenB, majOf, maj_swap_left]
  exact beq_maj_eq_false_iff _ _ _

theorem ckenC_eq_false_iff (r : Regs) :
    ckenC r = false ↔ clockBitC r ≠ clockBitA r ∧ clockBitC r ≠ clockBitB r := by
  rw [ckenC, majOf, maj_swap_right, maj_swap_left]
  exact beq_maj_eq_false_iff _ _ _

/-- The shifted register as a sequence (R124). -/
theorem toBits_shift {n : Nat} (v : BitVec n) (f : Bit) (h : 0 < n) :
    toBits (shift v f) = f :: (toBits v).take (n - 1) := by
  refine List.ext_getElem (by simp; omega) fun i hi _ => ?_
  rw [length_toBits] at hi
  rw [getElem_toBits, getLsbD_shift]
  cases i with
  | zero => simp [h]
  | succ i => simp [hi]

/-- Above the front, the mux takes the bit below from a register that clocks and the bit itself from one that holds. -/
theorem getLsbD_mux {n : Nat} (clocks : Bool) (v : BitVec n) (f : Bit) {i : Nat} (h : i + 1 < n) :
    (if clocks = true then shift v f else v).getLsbD (i + 1) =
      if clocks = true then v.getLsbD i else v.getLsbD (i + 1) := by
  cases clocks
  · rfl
  · exact (getLsbD_shift v f (i + 1)).trans (by simp [h])

/-- Settles O25: each clause is a law of the majority. -/
theorem majorityIsTwoOutOfThree : Obligations.MajorityIsTwoOutOfThree :=
  fun x y z => ⟨maj_eq_true_iff x y z, maj_swap_left x y z, maj_swap_right x y z⟩

/-- Settles O26: the enables compare the clocking bits with their majority. -/
theorem clockEnablesFollowTheMajority : Obligations.ClockEnablesFollowTheMajority :=
  fun r => ⟨rfl, beq_iff_eq, beq_iff_eq, beq_iff_eq, two_le_count_beq_maj _ _ _,
    ckenA_eq_false_iff r, ckenB_eq_false_iff r, ckenC_eq_false_iff r⟩

/-- Settles O27: the exclusive-or over each tap table, written out. -/
theorem feedbackIsTheXorOfTheTaps : Obligations.FeedbackIsTheXorOfTheTaps :=
  ⟨fun _ => by simp [fbA, tapsA, xorTaps], fun _ => by simp [fbB, tapsB, xorTaps],
    fun _ => by simp [fbC, tapsC, xorTaps]⟩

/-- Settles O28: the shift as a sequence, and by element. -/
theorem shiftPutsTheFeedbackInFront : Obligations.ShiftPutsTheFeedbackInFront := by
  intro n v f hn
  refine ⟨toBits_shift v f hn, ?_, fun i hpos hi => ?_⟩
  · rw [getLsbD_shift]
    simp [hn]
  · rw [getLsbD_shift]
    simp [hi, Nat.ne_of_gt hpos]

/-- Settles O29: all three values of the mux are of the one state before the step. -/
theorem registersUpdateSimultaneously : Obligations.RegistersUpdateSimultaneously := fun _ => rfl

/-- Settles O30: the output is the exclusive-or of the last bits after the update, and each of them is what the mux
puts there. -/
theorem outputIsTakenAfterTheUpdate : Obligations.OutputIsTakenAfterTheUpdate := by
  intro r
  have hout : (stepF r).2 =
      ((nextA r).getLsbD 18 ^^ (nextB r).getLsbD 21 ^^ (nextC r).getLsbD 22) := rfl
  have ha := getLsbD_mux (ckenA r) r.a (fbA r.a) (i := 17) (by decide)
  have hb := getLsbD_mux (ckenB r) r.b (fbB r.b) (i := 20) (by decide)
  have hc := getLsbD_mux (ckenC r) r.c (fbC r.c) (i := 21) (by decide)
  exact ⟨hout, by rw [hout, nextA, nextB, nextC, ha, hb, hc]⟩

/-- Settles O31: the step of the model, run. -/
theorem workedStepFromKey0 : Obligations.WorkedStepFromKey0 := by
  unfold Obligations.WorkedStepFromKey0
  decide

/-- Settles O32: STEP where its key check passes. -/
theorem stepCommandTakesOneStep : Obligations.StepCommandTakesOneStep := fun _ => exec_step_of_key

end Sys2Proof.Machine
end

section
/-! PROOFS. Registers that a step leaves as they are, and what steps from there output (R132, R207). -/

namespace Sys2Proof.Machine

/-- Only a register of equal bits is its own shift, with that bit in front (R132 (c)). -/
theorem getLsbD_of_shift_eq_self {n : Nat} {v : BitVec n} {f : Bit} (h : shift v f = v) {i : Nat} (hi : i < n) :
    v.getLsbD i = f := by
  induction i with
  | zero =>
    rw [← h, getLsbD_shift]
    simp [hi]
  | succ i ih =>
    rw [← h, getLsbD_shift]
    simpa [hi] using ih (Nat.lt_of_succ_lt hi)

theorem shift_zero_false (n : Nat) : shift 0#n false = 0#n := by
  ext i hi
  simp [getElem_shift]

/-- The exclusive-or over taps that all read `f` is `f` for an odd number of them and 0 for an even one. -/
theorem xorTaps_of_forall_eq {n : Nat} {v : BitVec n} {f : Bit} {ts : List Nat}
    (h : ∀ t ∈ ts, v.getLsbD t = f) : xorTaps v ts = (f && ts.length.bodd) := by
  induction ts with
  | nil => simp [xorTaps]
  | cons t ts ih =>
    obtain ⟨ht, hts⟩ := List.forall_mem_cons.mp h
    rw [xorTaps, ht, ih hts]
    cases f <;> simp

/-- With an even number of taps, clocking leaves only the all-0 register as it is: an all-1 register has feedback 0
(R132 (c)). -/
theorem shift_xorTaps_eq_self_iff {n : Nat} {v : BitVec n} {ts : List Nat} (hlt : ∀ t ∈ ts, t < n)
    (heven : ts.length.bodd = false) : shift v (xorTaps v ts) = v ↔ v = 0#n := by
  constructor
  · intro h
    have hfb : xorTaps v ts = false := by
      rw [xorTaps_of_forall_eq fun t ht => getLsbD_of_shift_eq_self h (hlt t ht), heven, Bool.and_false]
    refine BitVec.eq_of_getLsbD_eq fun i hi => ?_
    rw [getLsbD_of_shift_eq_self h hi, hfb, BitVec.getLsbD_zero]
  · rintro rfl
    have hfb : xorTaps 0#n ts = false :=
      xorTaps_of_forall_eq (f := false) fun _ _ => BitVec.getLsbD_zero
    rw [hfb, shift_zero_false]

theorem nextA_eq_self_iff (r : Regs) : nextA r = r.a ↔ (ckenA r = true → r.a = 0#19) := by
  rw [nextA, ite_eq_right_iff, fbA, shift_xorTaps_eq_self_iff (by decide) rfl]

theorem nextB_eq_self_iff (r : Regs) : nextB r = r.b ↔ (ckenB r = true → r.b = 0#22) := by
  rw [nextB, ite_eq_right_iff, fbB, shift_xorTaps_eq_self_iff (by decide) rfl]

theorem nextC_eq_self_iff (r : Regs) : nextC r = r.c ↔ (ckenC r = true → r.c = 0#23) := by
  rw [nextC, ite_eq_right_iff, fbC, shift_xorTaps_eq_self_iff (by decide) rfl]

/-- A step leaves the registers as they are when those it clocks are all 0 (R132 (c)). -/
theorem clockRegs_eq_self_iff (r : Regs) : clockRegs r = r ↔
    (ckenA r = true → r.a = 0#19) ∧ (ckenB r = true → r.b = 0#22) ∧ (ckenC r = true → r.c = 0#23) := by
  rw [← nextA_eq_self_iff, ← nextB_eq_self_iff, ← nextC_eq_self_iff]
  cases r
  exact iff_of_eq (Regs.mk.injEq ..)

/-- With every register that clocks all 0, any number of steps changes nothing and outputs the same bit (R132 (f)). -/
theorem genF_of_clocked_zero {r : Regs}
    (h : (ckenA r = true → r.a = 0#19) ∧ (ckenB r = true → r.b = 0#22) ∧ (ckenC r = true → r.c = 0#23)) (n : Nat) :
    genF r n = (r, List.replicate n (outBit r)) := by
  have hfix : clockRegs r = r := (clockRegs_eq_self_iff r).mpr h
  induction n with
  | zero => rfl
  | succ n ih => rw [genF_succ, stepF_fst, stepF_snd, hfix, ih, List.replicate_succ]

/-- Settles O33: an all-0 register is left as it is, clocked or not. -/
theorem allZeroRegistersStayZero : Obligations.AllZeroRegistersStayZero := by
  refine ⟨fun r => ⟨fun h => ?_, fun h => ?_, fun h => ?_⟩, ?_⟩
  · exact ((nextA_eq_self_iff r).mpr fun _ => h).trans h
  · exact ((nextB_eq_self_iff r).mpr fun _ => h).trans h
  · exact ((nextC_eq_self_iff r).mpr fun _ => h).trans h
  · exact genF_of_clocked_zero ⟨fun _ => rfl, fun _ => rfl, fun _ => rfl⟩

/-- Settles O34: each register is left as it is when it holds or is all 0, and in no other case. -/
theorem stepFixesExactlyZeroClockedRegisters : Obligations.StepFixesExactlyZeroClockedRegisters :=
  clockRegs_eq_self_iff

/-- Settles O35: the one register that is not all 0 differs from both others at its clocking index, so it holds. -/
theorem twoZeroRegistersStopTheThird : Obligations.TwoZeroRegistersStopTheThird := by
  refine ⟨fun a n h => ?_, fun b n h => ?_, fun c n h => ?_⟩
  · have hold : ckenA ⟨a, 0#22, 0#23⟩ = false :=
      (ckenA_eq_false_iff _).mpr (by simp [clockBitA, clockBitB, clockBitC, clockIndexA, h])
    simpa [outBit, lastA] using
      genF_of_clocked_zero (r := ⟨a, 0#22, 0#23⟩) ⟨by simp [hold], fun _ => rfl, fun _ => rfl⟩ n
  · have hold : ckenB ⟨0#19, b, 0#23⟩ = false :=
      (ckenB_eq_false_iff _).mpr (by simp [clockBitA, clockBitB, clockBitC, clockIndexB, h])
    simpa [outBit, lastB] using
      genF_of_clocked_zero (r := ⟨0#19, b, 0#23⟩) ⟨fun _ => rfl, by simp [hold], fun _ => rfl⟩ n
  · have hold : ckenC ⟨0#19, 0#22, c⟩ = false :=
      (ckenC_eq_false_iff _).mpr (by simp [clockBitA, clockBitB, clockBitC, clockIndexC, h])
    simpa [outBit, lastC] using
      genF_of_clocked_zero (r := ⟨0#19, 0#22, c⟩) ⟨fun _ => rfl, fun _ => rfl, by simp [hold]⟩ n

end Sys2Proof.Machine
end

section
/-! PROOFS. The keystream bit by bit (R150, R153), and the transform that exclusive-ors it onto a payload (R154, R157
(e), R158). -/

namespace Sys2Proof.Machine

/-- The last of `n + 1` steps is a step from the registers of `n` (R150). -/
theorem genF_succ_fst (r : Regs) (n : Nat) : (genF r (n + 1)).1 = (stepF (genF r n).1).1 := by
  rw [genF_add]
  rfl

/-- Bit `i` is the output of the step that follows the first `i` (R153). -/
theorem getElem?_genF (r : Regs) {n i : Nat} (h : i < n) : (genF r n).2[i]? = some (stepF (genF r i).1).2 := by
  obtain ⟨k, rfl⟩ := Nat.exists_eq_add_of_lt h
  rw [Nat.add_assoc, genF_add, List.getElem?_append_right (length_genF r i).le, length_genF, Nat.sub_self, genF_succ]
  rfl

/-- The bits after the first `m` are those of the steps that follow the first `m` (R152). -/
theorem drop_genF_add (r : Regs) (m n : Nat) : (genF r (m + n)).2.drop m = (genF (genF r m).1 n).2 := by
  rw [genF_add]
  exact List.drop_left' (length_genF r m)

theorem cryptF_fst (iv : Regs) (p : Bits) : (cryptF iv p).1 = (genF iv p.length).1 := rfl
theorem cryptF_snd (iv : Regs) (p : Bits) : (cryptF iv p).2 = xorBits p (genF iv p.length).2 := rfl

/-- Bit `i` of the result is bit `i` of the payload exclusive-or the output of step `i + 1` (R154). -/
theorem getElem?_cryptF (iv : Regs) (p : Bits) (i : Nat) :
    (cryptF iv p).2[i]? = p[i]?.map (· ^^ (stepF (genF iv i).1).2) := by
  rw [cryptF_snd, xorBits, List.getElem?_zipWith']
  obtain hi | hi := Nat.lt_or_ge i p.length
  · simp [getElem?_genF iv hi, List.getElem?_eq_getElem hi]
  · simp [List.getElem?_eq_none hi]

/-- The transform is its own inverse: the keystream bits cancel (R158). -/
theorem cryptF_cryptF (iv : Regs) (p : Bits) : (cryptF iv (cryptF iv p).2).2 = p := by
  refine List.ext_getElem? fun i => ?_
  rw [getElem?_cryptF, getElem?_cryptF]
  cases p[i]? <;> simp

/-- A payload of `n` equal bits comes back as the keystream with that bit exclusive-ored on (R157 (e)). -/
theorem cryptF_replicate (iv : Regs) (n : Nat) (b : Bit) :
    (cryptF iv (List.replicate n b)).2 = (genF iv n).2.map (b ^^ ·) := by
  refine List.ext_getElem? fun i => ?_
  rw [getElem?_cryptF, List.getElem?_map]
  obtain hi | hi := Nat.lt_or_ge i n
  · rw [List.getElem?_replicate_of_lt hi, getElem?_genF iv hi, Option.map_some, Option.map_some]
  · simp [hi]

/-- Settles O38: the last step, and the bit that each step gives. -/
theorem keystreamBitsComeInOrder : Obligations.KeystreamBitsComeInOrder := fun r n =>
  ⟨genF_zero r, length_genF r n, genF_succ_fst r n, fun _ => getElem?_genF r⟩

/-- Settles O41: a result bit reads the payload at its own index only. -/
theorem eachOutputBitIsInputXorKeystream : Obligations.EachOutputBitIsInputXorKeystream := by
  refine fun iv p => ⟨cryptF_fst iv p, length_cryptF iv p, fun i x hx => ?_, fun q i _ hpq => ?_⟩
  · obtain ⟨hi, -⟩ := List.getElem?_eq_some_iff.mp hx
    exact ⟨_, getElem?_genF iv hi, by rw [getElem?_cryptF, hx, Option.map_some]⟩
  · rw [getElem?_cryptF, getElem?_cryptF, hpq]

/-- Settles O42: exclusive-or with 0 is the identity, with 1 the complement. -/
theorem constantPayloadsShowTheKeystream : Obligations.ConstantPayloadsShowTheKeystream := by
  intro iv n
  rw [cryptF_replicate, cryptF_replicate]
  simp

end Sys2Proof.Machine
end

section
/-! PROOFS. GENKS, ENCRYPT and DECRYPT with a key: what each leaves (R151, R155, R156), and how they continue,
repeat and undo one another (R152, R157 to R160, R208). -/

namespace Sys2Proof.Machine

/-- ENCRYPT with its payload present transforms it, if there is a key (R155). -/
theorem exec_encrypt_of_le {len : Nat} {s : State} (h : len ≤ s.din.length) :
    exec (.encrypt len) s = withKey s (s.transform (s.din.take len)) := withPayload_of_le h

/-- ENCRYPT with a key and its payload present (R155). -/
theorem exec_encrypt_of_key {len : Nat} {s : State} (hkv : s.engine.kv = true) (h : len ≤ s.din.length) :
    exec (.encrypt len) s = .next (s.transform (s.din.take len)) :=
  (exec_encrypt_of_le h).trans (withKey_of_key hkv)

/-- DECRYPT is ENCRYPT on every state (R156). -/
theorem exec_decrypt_eq_exec_encrypt (len : Nat) (s : State) : exec (.decrypt len) s = exec (.encrypt len) s := rfl

/-- The registers after a transform of `len` payload bits (R155). -/
theorem cryptF_take_fst {len : Nat} {p : Bits} (iv : Regs) (h : len ≤ p.length) :
    (cryptF iv (p.take len)).1 = (genF iv len).1 := by
  rw [cryptF_fst, List.length_take_of_le h]

/-- ENCRYPT of exactly the payload that the host sends with it (R155). -/
theorem exec_encrypt_payload {s : State} (p : Bits) (hkv : s.engine.kv = true) :
    exec (.encrypt p.length) { s with din := p } = .next (s.transform p) := by
  have hexec := exec_encrypt_of_key (s := { s with din := p }) hkv le_rfl
  rw [hexec, List.take_length]
  rfl

/-- An empty transform is a restart (R157 (a)). -/
theorem exec_encrypt_zero (s : State) : exec (.encrypt 0) s = exec .reset s := by
  have hrestart : s.transform (s.din.take 0) = (s.setEngine s.engine.restart).respond .ok [] := rfl
  rw [exec_encrypt_of_le (Nat.zero_le _), hrestart]
  rfl

/-- `n` STEPs advance the registers by `n` steps and respond with one bit each (R152). -/
theorem execAll_steps (n : Nat) (s : State) (hkv : s.engine.kv = true) :
    ∃ u, execAll s (List.replicate n (.step, [])) = .next u ∧
      u.engine = s.engine.setRegs (genF s.engine.cur n).1 ∧
      u.delivered = s.delivered ++ (genF s.engine.cur n).2.map fun z => ⟨.ok, [z]⟩ := by
  induction n generalizing s with
  | zero => exact ⟨s, rfl, rfl, by simp⟩
  | succ n ih =>
    have hstep := exec_step_of_key (s := { s with din := [] }) hkv
    obtain ⟨u, hrun, heng, hdel⟩ := ih (State.generate { s with din := [] } 1) hkv
    exact ⟨u, (execAll_cons _ hstep).trans hrun, heng, by simpa [genF_succ] using hdel⟩

/-- Settles O36: GENKS where its key check passes. -/
theorem genksRunsTheCountedSteps : Obligations.GenksRunsTheCountedSteps := fun _ _ => exec_genks_of_key

/-- Settles O39: ENCRYPT where its payload is present and its key check passes. -/
theorem encryptTransformsThePayload : Obligations.EncryptTransformsThePayload := by
  intro len s hkv h
  rw [exec_encrypt_of_key hkv h, ← cryptF_take_fst s.engine.iv h]
  rfl

/-- Settles O40: DECRYPT is ENCRYPT. -/
theorem decryptTransformsThePayload : Obligations.DecryptTransformsThePayload :=
  ⟨encryptTransformsThePayload, exec_decrypt_eq_exec_encrypt⟩

/-- Settles O45: an empty transform is a restart, and GENKS of one step and of none is what `genF` says of them. -/
theorem commandsThatAgree : Obligations.CommandsThatAgree := fun s =>
  ⟨exec_encrypt_zero s, (exec_decrypt_eq_exec_encrypt 0 s).trans (exec_encrypt_zero s), rfl,
    fun hkv => exec_genks_of_key hkv⟩

/-- Settles O37: `m + n` steps are `m` and then `n`, by two GENKS or by one STEP each. -/
theorem keystreamContinues : Obligations.KeystreamContinues := by
  refine ⟨genF_add, fun s m n hkv => ?_, fun s n hkv => ?_⟩
  · have hfirst := exec_genks_of_key (n := m) (s := { s with din := [] }) hkv
    have hsecond : exec (.genks n) (s.generate m) = .next ((s.generate m).generate n) := exec_genks_of_key hkv
    refine ⟨_, _, (genF s.engine.cur m).2, (genF (genF s.engine.cur m).1 n).2, exec_genks_of_key hkv,
      (execAll_cons _ hfirst).trans (execAll_cons [] hsecond), ?_, ?_, ?_⟩
    · simp [genF_add]
    · simp
    · simp [genF_add]
  · obtain ⟨u, hrun, heng, hdel⟩ := execAll_steps n s hkv
    exact ⟨s.generate n, u, _, exec_genks_of_key hkv, hrun, heng, rfl, hdel⟩

/-- Settles O44: with its payload the command answers from the initial vectors, without it waits. -/
theorem transformIgnoresEarlierProgress : Obligations.TransformIgnoresEarlierProgress := by
  intro s len cur hkv
  have henc : exec (.encrypt len) (s.setEngine (s.engine.setRegs cur)) = exec (.encrypt len) s := by
    obtain h | h := Nat.lt_or_ge s.din.length len
    · exact (exec_starved h).trans (exec_starved h).symm
    · rw [exec_encrypt_of_key hkv h]
      exact exec_encrypt_of_key hkv h
  exact ⟨henc, henc⟩

/-- Settles O43: the commands in between keep KV and the initial vectors, and the transform from those is its own
inverse. -/
theorem decryptUndoesEncrypt : Obligations.DecryptUndoesEncrypt := by
  intro s t p c cs hkv henc hdel u hcs hrun
  cases (exec_encrypt_payload p hkv).symm.trans henc
  obtain rfl : (cryptF s.engine.iv p).2 = c := by simpa using hdel
  obtain ⟨hkvu, hivu⟩ := execAll_keeps_key hcs hrun
  have hback := exec_encrypt_payload (cryptF s.engine.iv p).2 (hkvu.trans hkv)
  have hplain : (u.transform (cryptF s.engine.iv p).2).delivered = u.delivered ++ [⟨.ok, p⟩] := by
    simp [hivu, cryptF_cryptF]
  exact ⟨length_cryptF _ p, ⟨_, hback, hplain⟩, ⟨_, hback, hplain⟩⟩

/-- Settles O46: the transform takes its keystream from where RESET puts the registers. -/
theorem encryptIsResetGenksAndXor : Obligations.EncryptIsResetGenksAndXor := by
  intro s p hkv
  have hreset := exec_reset_of_key (s := { s with din := [] }) hkv
  refine ⟨s.transform p, _, (genF s.engine.iv p.length).2, exec_encrypt_payload p hkv,
    (execAll_cons _ hreset).trans (execAll_cons [] (exec_genks_of_key hkv)), rfl, ?_, rfl⟩
  simp

/-- Settles O47: the registers stand at position `n`, and GENKS goes on from there. -/
theorem keystreamContinuesAfterEncrypt : Obligations.KeystreamContinuesAfterEncrypt := by
  intro s t n m hkv hn henc
  cases (exec_encrypt_of_key hkv hn).symm.trans henc
  refine ⟨_, exec_genks_of_key hkv, ?_, ?_⟩
  · simp [cryptF_take_fst _ hn, genF_add]
  · simp [cryptF_take_fst _ hn, drop_genF_add]

end Sys2Proof.Machine
end

section
/-! PROOFS. The checks of a packet in their order (R178), and the errors they raise (R172, R174, R175). -/

namespace Sys2Proof.Machine

/-- The step that takes a packet with an illegal header raises IllegalCommand (R174). -/
theorem step_illegal {s : State} {p : Packet} {rest : List Input} {w : Illegal} (hin : s.input = .packet p :: rest)
    (h : decode p.header = .illegal w) :
    step s = .next (State.raiseError { s with input := rest } .illegalCommand) := by
  rw [step_packet hin, acceptPacket_of_illegal h]

/-- The check of LOADKEY is its length (R171). -/
theorem statusOf_loadkey (kv : Bool) (len : Nat) :
    statusOf kv (.loadkey len) = if len ≠ 64 then .invalidKeyLength else .ok := (ite_not ..).symm

/-- The check of every other command is the key (R172). -/
theorem statusOf_of_needsKey {i : Instr} (h : needsKey i = true) (kv : Bool) :
    statusOf kv i = if kv = false then .noKey else .ok := by
  cases i with
  | loadkey => cases h
  | reset | step | genks | encrypt | decrypt => cases kv <;> rfl

/-- The step that takes a packet with a legal header and goes on delivers the status of the command. -/
theorem step_command_delivers {s t : State} {p : Packet} {rest : List Input} {i : Instr}
    (hin : s.input = .packet p :: rest) (hd : decode p.header = .command i) (h : step s = .next t) :
    ∃ bits, t.delivered = s.delivered ++ [⟨statusOf s.engine.kv i, bits⟩] := by
  rw [step_command hin hd] at h
  obtain ⟨-, e, bits, rfl, -⟩ := exec_next_cases h
  exact ⟨bits, rfl⟩

/-- Settles O13: an illegal header is answered before any command runs, and a command answers the status of its own
check. -/
theorem checksAreMadeInOrder : Obligations.ChecksAreMadeInOrder := by
  intro s t p rest hin hstep
  cases hd : decode p.header with
  | illegal w =>
    cases (step_illegal hin hd).symm.trans hstep
    exact ⟨[], rfl⟩
  | command i =>
    obtain ⟨bits, hdel⟩ := step_command_delivers hin hd hstep
    refine ⟨bits, ?_⟩
    cases i with
    | loadkey len => rwa [statusOf_loadkey] at hdel
    | reset | step | genks | encrypt | decrypt => rwa [statusOf_of_needsKey rfl] at hdel

/-- Settles O17: without a key a command with its payload raises the error of its check, which is NoKey. -/
theorem commandsWithoutKeyRaiseNoKey : Obligations.CommandsWithoutKeyRaiseNoKey := by
  intro i s hneeds hkv hlen
  have hi : i ≠ .loadkey 64 := by
    rintro rfl
    cases hneeds
  rw [exec_noKey hi hkv, if_pos hlen, statusOf_of_needsKey hneeds]
  rfl

/-- Settles O8: the error raised for an illegal header, and its code. -/
theorem illegalHeaderRaisesIllegalCommand : Obligations.IllegalHeaderRaisesIllegalCommand :=
  fun _ _ _ _ hin hd => ⟨step_illegal hin hd, rfl⟩

/-- Settles O12: the five rows of the table of codes. -/
theorem statusCodesAreAsListed : Obligations.StatusCodesAreAsListed := ⟨rfl, rfl, rfl, rfl, rfl⟩

end Sys2Proof.Machine
end

section
/-! PROOFS. A host that keeps the payload duty never stops the machine (R182, R205). -/

namespace Sys2Proof.Machine

/-- A machine that from every state of an invariant steps to a state of it runs for ever. -/
theorem core_run_of_invariant {P : State → Prop} (hstep : ∀ s, P s → ∃ t, step s = .next t ∧ P t) (n : Nat)
    {s : State} (hs : P s) : ∃ t, Host.Core.run Sys2Proof.core n s = .next t ∧ P t := by
  induction n generalizing s with
  | zero => exact ⟨s, rfl, hs⟩
  | succ n ih =>
    obtain ⟨u, hu, hPu⟩ := hstep s hs
    rw [core_run_succ n hu]
    exact ih hPu

section Duty
variable {s : State} (h : s.HostKeepsDuty)
include h

/-- The next packet carries its payload. -/
theorem State.HostKeepsDuty.head {p : Packet} {rest : List Input} (hin : s.input = .packet p :: rest) :
    p.Complete := h p (hin ▸ List.mem_cons_self)

/-- With an input taken off, the duty is kept by those that remain. -/
theorem State.HostKeepsDuty.tail {t : State} {i : Input} (hin : s.input = i :: t.input) : t.HostKeepsDuty :=
  fun p hp => h p (hin ▸ List.mem_cons_of_mem i hp)

/-- Where the host keeps the duty the machine steps on, and the duty is still kept. -/
theorem step_keepsDuty : ∃ t, step s = .next t ∧ t.HostKeepsDuty := by
  obtain ⟨hin, -⟩ | ⟨p, rest, hin, -⟩ | ⟨rest, hin, -⟩ := acceptNext_cases s
  · exact ⟨s, step_nothing hin, h⟩
  · exact ⟨_, step_eq_answerPacket hin (h.head hin), h.tail hin⟩
  · exact ⟨_, step_hardwareReset hin, h.tail hin⟩

end Duty

/-- Settles O53: the duty is an invariant under which every step goes on. -/
theorem dutifulHostNeverStopsTheEngine : Obligations.DutifulHostNeverStopsTheEngine := by
  intro n s hduty
  obtain ⟨t, hrun, -⟩ := core_run_of_invariant (fun _ => step_keepsDuty) n hduty
  exact ⟨t, hrun⟩

end Sys2Proof.Machine
end

section
/-! PROOFS. The front end tests the length of a key, then the characters, and presents the rest (R50, R173, R178). -/

namespace Sys2Proof.Machine

/-- The character of a bit (R50). -/
def bitChar (b : Bit) : Char := if b then '1' else '0'

theorem charBit_bitChar (b : Bit) : charBit (bitChar b) = some b := by
  cases b <;> rfl

theorem charBit_of_ne {c : Char} (h0 : c ≠ '0') (h1 : c ≠ '1') : charBit c = none := by simp [charBit, h0, h1]

/-- A bit sequence is read back from its string. -/
theorem stringBits_map_bitChar (p : Bits) : stringBits (p.map bitChar) = some p := by
  induction p with
  | nil => rfl
  | cons b p ih => simp [stringBits, charBit_bitChar, ih]

/-- One character that is neither '0' nor '1' spoils the string (R173). -/
theorem stringBits_of_badChar {text : List Char} (h : ∃ c ∈ text, c ≠ '0' ∧ c ≠ '1') : stringBits text = none := by
  obtain ⟨c, hc, h0, h1⟩ := h
  induction text with
  | nil => cases hc
  | cons d cs ih =>
    obtain rfl | hcs := List.mem_cons.mp hc
    · simp [stringBits, charBit_of_ne h0 h1]
    · simp [stringBits, ih hcs]

theorem presentMessage_of_badChar (line : Bits → AsmLine) {text : List Char}
    (h : ∃ c ∈ text, c ≠ '0' ∧ c ≠ '1') : presentMessage line text = .rejects .invalidInputFormat := by
  rw [presentMessage, stringBits_of_badChar h]

theorem presentMessage_map_bitChar (line : Bits → AsmLine) (p : Bits) :
    presentMessage line (p.map bitChar) = presentLine (line p) := by
  rw [presentMessage, stringBits_map_bitChar]

/-- A line of one command whose count fits LEN is presented as that command's packet (R82). -/
theorem presentLine_of_wellFormed {l : AsmLine} {i : Instr} {p : Bits} (hl : assemble l = (packetOf i p).map ([·]))
    (hwf : WellFormed i = true) : presentLine l = .presents [⟨encode i, p⟩] := by
  simp [presentLine, hl, packetOf, hwf]

/-- A message of bits whose length fits LEN is presented as the packet of its command. -/
theorem presentMessage_of_wellFormed {line : Bits → AsmLine} {i : Instr} {p : Bits}
    (hl : assemble (line p) = (packetOf i p).map ([·])) (hwf : WellFormed i = true) :
    presentMessage line (p.map bitChar) = .presents [⟨encode i, p⟩] :=
  (presentMessage_map_bitChar line p).trans (presentLine_of_wellFormed hl hwf)

theorem presentKey_of_length_ne {key : List Char} (h : key.length ≠ 64) :
    presentKey key = .rejects .invalidKeyLength := if_pos h

theorem presentKey_of_length_eq {key : List Char} (h : key.length = 64) :
    presentKey key = presentMessage .loadkey key := if_neg (not_not.mpr h)

/-- Settles O55: a key of 64 characters is a message to LOADKEY, and every message is rejected for its characters or
presented. -/
theorem frontEndRejectsBeforeTheEngine : Obligations.FrontEndRejectsBeforeTheEngine := by
  refine ⟨fun _ => presentKey_of_length_ne, fun key hlen hbad => ?_, fun text hbad => ?_, fun k hk => ?_,
    fun p hp => ?_⟩
  · exact (presentKey_of_length_eq hlen).trans (presentMessage_of_badChar _ hbad)
  · exact ⟨presentMessage_of_badChar _ hbad, presentMessage_of_badChar _ hbad⟩
  · rw [← hk]
    refine (presentKey_of_length_eq ((List.length_map _).trans hk)).trans ?_
    exact presentMessage_of_wellFormed rfl (wellFormed_iff.mpr (hk.le.trans (by decide)))
  · exact ⟨presentMessage_of_wellFormed rfl (wellFormed_iff.mpr hp),
      presentMessage_of_wellFormed rfl (wellFormed_iff.mpr hp)⟩

end Sys2Proof.Machine
end

section
/-! PROOFS. Hardware reset, at the operation layer and at the ports (R200, R201, R202), and the packet that is short of
its payload (R205). -/

namespace Sys2Proof.Machine

/-- The step that takes a packet short of its payload waits: its header is a command's, which is starved (R205). -/
theorem step_starved {s : State} {p : Packet} {rest : List Input} (hin : s.input = .packet p :: rest)
    (hp : ¬ p.Complete) : step s = .fault .payloadStarved := by
  have hlt : p.payload.length < headerPayloadLen p.header := Nat.not_le.mp hp
  cases hd : decode p.header with
  | command i =>
    rw [headerPayloadLen_of_command hd] at hlt
    exact (step_command hin hd).trans (exec_starved hlt)
  | illegal w =>
    rw [headerPayloadLen_of_illegal hd] at hlt
    exact absurd hlt (Nat.not_lt_zero _)

/-- Settles O16: a complete packet is answered, and any other starves its command. -/
theorem missingPayloadLeavesTheEngineWaiting : Obligations.MissingPayloadLeavesTheEngineWaiting := by
  refine fun s p rest hin => ⟨fun hfault hp => ?_, step_starved hin⟩
  rw [step_eq_answerPacket hin hp] at hfault
  cases hfault

/-- Settles O10: the state the reset leaves has no key, so RESET fails its key check there. -/
theorem hardwareResetForgetsTheKey : Obligations.HardwareResetForgetsTheKey :=
  fun _ _ hin => ⟨_, step_hardwareReset hin, rfl, rfl, rfl, rfl, exec_reset_of_noKey rfl⟩

/-- An edge with `RST_N = 0` is the hardware reset, in any phase (R201). -/
theorem edge_of_low {i : PortsIn} (h : i.rstN = false) (p : PortState) : edge p i = p.hardwareReset := by
  simp [edge, h]

/-- Settles O59: the state that the hardware reset leaves is the reset state of R200. -/
theorem portResetOverridesEverything : Obligations.PortResetOverridesEverything := by
  intro p i hi
  rw [edge_of_low hi]
  exact ⟨rfl, rfl, rfl, rfl⟩

end Sys2Proof.Machine
end

section
/-! PROOFS. The beats that a command in progress has left: it shows no status and takes no header before the last of
them, and an edge without the payload bit it wants takes none of them (R205, R209, R214). -/

namespace Sys2Proof.Machine

theorem Phase.cmdReady_eq_false_iff (ph : Phase) : ph.cmdReady = false ↔ ph ≠ .idle := by
  cases ph <;> simp

/-- The header on `CMD` is read at idle only. -/
theorem beat_ignores_cmd {p : PortState} (hp : p.phase ≠ .idle) (i : PortsIn) (c : Option Header) :
    beat p { i with cmd := c } = beat p i := by
  unfold beat
  cases hph : p.phase with
  | idle => exact absurd hph hp
  | stepping | crypting | keying | draining => rfl

/-- Settles O60: a beat in progress ignores the header, and a hardware reset ignores every input. -/
theorem busyEngineTakesNoHeader : Obligations.BusyEngineTakesNoHeader := by
  refine fun p i c hp => ⟨?_, (Phase.cmdReady_eq_false_iff _).mpr hp⟩
  rw [edge, edge, beat_ignores_cmd hp]

/-- The beats that the command in progress still takes, when no payload bit is late (R214). -/
def Phase.beatsLeft : Phase → Nat
  | .idle => 0
  | .stepping more => more + 1
  | .crypting more => more + 1
  | .keying _ more => more + 1
  | .draining more _ => more + 1

/-- An edge at which a command makes progress: any edge, or, where it is `ready` for a payload bit, one that brings it
(R205). -/
def makesBeat (ready : Bool) (d : Option Bit) : Bool := d.isSome || !ready

/-- The edges of a schedule at which a command makes progress. -/
def beatsMade (ready : Bool) (ds : List (Option Bit)) : Nat := ds.countP (makesBeat ready)

theorem beatsMade_le_length (ready : Bool) (ds : List (Option Bit)) : beatsMade ready ds ≤ ds.length :=
  List.countP_le_length

theorem beatsMade_true (ds : List (Option Bit)) : beatsMade true ds = (presentedBits ds).length := by
  have hfun : makesBeat true = Option.isSome := funext fun d => by simp [makesBeat]
  rw [beatsMade, hfun]
  exact List.length_filterMap_eq_countP.symm

theorem beatsMade_cons_of_pos {ready : Bool} {d : Option Bit} (hd : makesBeat ready d = true) (ds : List (Option Bit)) :
    beatsMade ready (d :: ds) = beatsMade ready ds + 1 := List.countP_cons_of_pos hd

theorem beatsMade_cons_of_neg {ready : Bool} {d : Option Bit} (hd : ¬ makesBeat ready d = true)
    (ds : List (Option Bit)) : beatsMade ready (d :: ds) = beatsMade ready ds := List.countP_cons_of_neg hd

/-- The cycle `q` of a command in progress: no status is valid, `n` beats are left after the next one, and `DIN_READY`
is `ready`. -/
structure PortState.Busy (q : PortState) (ready : Bool) (n : Nat) : Prop where
  rsp : q.rsp = none
  beatsLeft : q.phase.beatsLeft = n + 1
  dinReady : q.phase.dinReady = ready

section Busy
variable {q : PortState} {ready : Bool} {n : Nat}

theorem PortState.Busy.phase_ne_idle (h : q.Busy ready n) : q.phase ≠ .idle := fun hp => by
  simpa [hp, Phase.beatsLeft] using h.beatsLeft

/-- An edge that brings no wanted payload bit leaves the command where it is (R205). -/
theorem beat_without_bit (h : q.phase.dinReady = true) : beat q ⟨true, none, none⟩ = q.quiet q.engine q.phase := by
  unfold beat
  cases hph : q.phase with
  | idle | stepping => simp [hph, Phase.dinReady] at h
  | crypting | keying | draining => rfl

theorem PortState.Busy.stall (h : q.Busy true n) : (beat q ⟨true, none, none⟩).Busy true n := by
  rw [beat_without_bit h.dinReady]
  exact ⟨rfl, h.beatsLeft, h.dinReady⟩

/-- Any other edge takes one of the beats, and no status is valid while more of them are left (R213). -/
theorem PortState.Busy.advance {d : Option Bit} (h : q.Busy ready (n + 1)) (hd : makesBeat ready d = true) :
    (beat q ⟨true, none, d⟩).Busy ready n := by
  obtain ⟨-, hleft, rfl⟩ := h
  unfold beat
  cases hph : q.phase with
  | idle => simp [hph, Phase.beatsLeft] at hleft
  | stepping more =>
    obtain rfl : more = n + 1 := by simpa [hph, Phase.beatsLeft] using hleft
    exact ⟨rfl, rfl, rfl⟩
  | crypting more | keying _ more | draining more _ =>
    obtain rfl : more = n + 1 := by simpa [hph, Phase.beatsLeft] using hleft
    obtain ⟨x, rfl⟩ := Option.isSome_iff_exists.mp (by simpa [makesBeat, hph, Phase.dinReady] using hd)
    exact ⟨rfl, rfl, rfl⟩

/-- A schedule that does not take all the beats shows no status and leaves the command in progress. -/
theorem PortState.Busy.over_schedule {ds : List (Option Bit)} (h : q.Busy ready n) (hds : beatsMade ready ds ≤ n) :
    statusesOf (cyclesFrom q ds) = [] ∧ ∃ m, (runEdges q (payloadEdges ds)).Busy ready m := by
  induction ds generalizing q n with
  | nil => exact ⟨(statusesOf_ports_cons q []).trans (by rw [h.rsp]; rfl), n, h⟩
  | cons d ds ih =>
    rw [cyclesFrom_cons, statusesOf_ports_cons, h.rsp]
    by_cases hd : makesBeat ready d = true
    · rw [beatsMade_cons_of_pos hd] at hds
      obtain ⟨n, rfl⟩ := Nat.exists_eq_add_of_le' (Nat.one_le_of_lt hds)
      exact ih (h.advance hd) (Nat.le_of_succ_le_succ hds)
    · rw [beatsMade_cons_of_neg hd] at hds
      obtain ⟨rfl, rfl⟩ : d = none ∧ ready = true := by simpa [makesBeat] using hd
      exact ih h.stall hds

end Busy

/-- The header of a command of `m` steps, with its key test: STEP where `m` is 1, and GENKS. -/
theorem PortState.steps_busy (p : PortState) {m n : Nat} (hm : (if p.engine.kv then m else 0) = n + 1) :
    (if p.engine.keyValid then p.begin p.engine .ok .stepping m else p.finish p.engine .noKey).Busy false n := by
  split at hm
  next hkv =>
    subst hm
    exact (if_pos hkv).symm ▸ ⟨rfl, rfl, rfl⟩
  next => cases hm

/-- The beat that takes a header leaves its command in progress with the beats of R214, ready for payload bits exactly
when the header announces some. -/
theorem acceptHeader_busy {p : PortState} {h : Header} {n : Nat} (hn : headerBeats p.engine.kv h = n + 1) :
    (acceptHeader p h).Busy (headerPayloadLen h != 0) n := by
  unfold headerBeats at hn
  unfold acceptHeader
  cases hd : decode h with
  | illegal w => simp [hd] at hn
  | command i =>
    rw [headerPayloadLen_of_command hd]
    rw [hd] at hn
    cases i with
    | reset => cases hn
    | loadkey len | encrypt len | decrypt len =>
      obtain rfl : len = n + 1 := hn
      dsimp only
      split <;> exact ⟨rfl, rfl, rfl⟩
    | step => exact p.steps_busy (m := 1) hn
    | genks m => exact p.steps_busy hn

/-- A header that announces payload bits takes one beat for each of them, with a key or without (R214). -/
theorem headerBeats_of_payload {h : Header} (hn : headerPayloadLen h ≠ 0) (kv : Bool) :
    headerBeats kv h = headerPayloadLen h := by
  cases hd : decode h with
  | illegal w => exact absurd (headerPayloadLen_of_illegal hd) hn
  | command i =>
    rw [headerPayloadLen_of_command hd] at hn ⊢
    rw [headerBeats, hd]
    cases i with
    | reset | step | genks => exact absurd rfl hn
    | loadkey | encrypt | decrypt => rfl

/-- A schedule with the beats of a header and no late bit brings the payload. -/
theorem headerPayloadLen_le_headerBeats (h : Header) (kv : Bool) : headerPayloadLen h ≤ headerBeats kv h := by
  by_cases hn : headerPayloadLen h = 0
  · exact hn ▸ Nat.zero_le _
  · exact (headerBeats_of_payload hn kv).ge

theorem length_presentedBits_of_forall_isSome {ds : List (Option Bit)} (h : ∀ d ∈ ds, d.isSome = true) :
    (presentedBits ds).length = ds.length := by
  rw [← beatsMade_true]
  exact List.countP_eq_length.mpr fun d hd => by simp [makesBeat, h d hd]

/-- Settles O57: each beat takes a payload bit, so a schedule short of them does not take all the beats. -/
theorem portEngineWaitsForMissingBits : Obligations.PortEngineWaitsForMissingBits := by
  intro p h ds hp hshort
  obtain ⟨n, hn⟩ := Nat.exists_eq_add_of_le' (Nat.one_le_of_lt hshort)
  have hpos : headerPayloadLen h ≠ 0 := by simp [hn]
  have hbusy : (acceptHeader p h).Busy true n :=
    bne_iff_ne.mpr hpos ▸ acceptHeader_busy ((headerBeats_of_payload hpos p.engine.kv).trans hn)
  rw [hn, ← beatsMade_true] at hshort
  obtain ⟨hstatus, m, hend⟩ := hbusy.over_schedule (Nat.le_of_lt_succ hshort)
  rw [observe_drive hp, runEdges_drive hp]
  exact ⟨hstatus, (Phase.cmdReady_eq_false_iff _).mpr hend.phase_ne_idle, hend.dinReady⟩

theorem dropLast_drive_concat (h : Header) (ds : List (Option Bit)) (d : Option Bit) :
    (drive h (ds ++ [d])).dropLast = drive h ds := by
  simp [drive, List.dropLast_cons_of_ne_nil]

/-- Settles O58: all the edges but the last leave the command in progress, and all of them bring its answer. -/
theorem responseComesAfterTheCountedBeats : Obligations.ResponseComesAfterTheCountedBeats := by
  intro p h ds hp hlen hsome
  constructor
  · obtain rfl | ⟨ds, d, rfl⟩ := ds.eq_nil_or_concat'
    · rfl
    · have hbusy := acceptHeader_busy (hlen.symm.trans List.length_append)
      rw [dropLast_drive_concat, observe_drive hp]
      exact (hbusy.over_schedule (beatsMade_le_length _ ds)).1
  · have hbits : headerPayloadLen h ≤ (presentedBits ds).length := by
      rw [length_presentedBits_of_forall_isSome hsome, hlen]
      exact headerPayloadLen_le_headerBeats h _
    rw [observe_drive hp, (acceptHeader_delivers p h hbits hlen.ge).statuses]
    rfl

end Sys2Proof.Machine
end
